-- ==== Sys2Proof/Word.lean ====
section
/-! DEFINITION. The word types of the block (00_scope.md R13; 30_encoding.md R71, R72). -/

namespace Sys2Proof

/-- An 8-bit pattern: a cell of either store (R13, R20, R24). -/
abbrev Byte := BitVec 8

/-- A 16-bit pattern: a word view, an address field, a file handle (R13, R72). -/
abbrev Half := BitVec 16

/-- The 32-bit result of a command (R71). -/
abbrev RData := BitVec 32

/-- The 64-bit command word (R72). -/
abbrev CmdWord := BitVec 64

end Sys2Proof
end

