-- ==== Sys2Proof/Config.lean ====
section
/-! DEFINITION. What is fixed for one machine: the free values the spec leaves open, the launch parameters that
`State.reset` takes where the spec gives none, and the register layout. -/

namespace Sys2Proof.Config

/-- `rfDraw k o`: what byte `o` of the RF made by construction number `k` holds until it is written. A free value:
"A model must not assume zero" (10_state.md R34). Log 2. -/
opaque rfDraw : Nat → Nat → Byte

/-- `rand k i`: what the host's random source yields for cell `i` in construction number `k` (10_state.md R33,
70_reset_and_hazards.md R182). A free value; `Contents.byte` brings it into `[lo, hi]`. Log 3. -/
opaque rand : Nat → Nat → Byte

/-- `flagLabelText j f`: the open text of the flag label row before its letter number `j`, and after the last one
for `j = 6` (41_register_file.md R140: characters, spacing and the unused columns are open). A free value. Log 4. -/
opaque flagLabelText : Nat → Byte → List Char

/-- BASE of the AM instance of `State.reset`. DESIGN CHOICE: a launch parameter (R8); the value of the source's
own scenario (95_test_vectors.md W1). Log 1. -/
def resetBase : Half := 0x1000

/-- CAP of the AM instance of `State.reset`. DESIGN CHOICE, log 1. -/
def resetCap : Nat := 256

/-- The fill byte of the AM instance of `State.reset`, made by `Fill(v)` (R183). DESIGN CHOICE, log 1. -/
def resetFill : Byte := 0x00

/-- The configuration table `RegLayout` (10_state.md R25): the offset of every named byte, a field per row of that
rule's table. -/
structure RegLayout where
  (a f b c d e h l a' f' b' c' d' e' h' l' i r : Fin 26)
  (spLow spHigh pcLow pcHigh ixLow ixHigh iyLow iyHigh : Fin 26)
deriving DecidableEq, Repr

/-- The table at the value R25 gives it. Log 19. -/
def regLayout : RegLayout where
  a := 0
  f := 1
  b := 2
  c := 3
  d := 4
  e := 5
  h := 6
  l := 7
  a' := 8
  f' := 9
  b' := 10
  c' := 11
  d' := 12
  e' := 13
  h' := 14
  l' := 15
  i := 16
  r := 17
  spLow := 18
  spHigh := 19
  pcLow := 20
  pcHigh := 21
  ixLow := 22
  ixHigh := 23
  iyLow := 24
  iyHigh := 25

end Sys2Proof.Config
end

