-- ==== Sys2Proof/Syntax.lean ====
section
/-! DEFINITION. The commands of the block, the lines of its assembler listing, and the operands of construction. -/

namespace Sys2Proof

/-- The six flags of F (10_state.md R30). Bits 3 and 5 have no flag, so no term names them. -/
inductive Flag where
  | c | n | pv | h | z | s
deriving DecidableEq, Repr

/-- The optional span of MFILL, MDUMP and MSAVE (30_encoding.md R78): RNG = 0 is the whole block, RNG = 1 gives
both ends, inclusive. -/
inductive Span where
  | whole
  | range (b e : Half)
deriving DecidableEq, Repr

/-- The commands, one constructor per row of the opcode table, with the operands of the "fields used" column of
30_encoding.md R74. A field a command does not use is no operand (R79). -/
inductive Instr where
  /-- R131: read the RF byte at offset `o`. -/
  | rrdb (o : Half)
  /-- R132: write the RF byte at offset `o`. -/
  | rwrb (o : Half) (v : Byte)
  /-- R133: read the RF word view at offset `o`. -/
  | rrdw (o : Half)
  /-- R134: write the RF word view at offset `o`. -/
  | rwrw (o : Half) (v : Half)
  /-- R135: read a flag. -/
  | rgetf (f : Flag)
  /-- R136: set a flag. -/
  | rsetf (f : Flag)
  /-- R137: clear a flag. -/
  | rclrf (f : Flag)
  /-- R138: dump the flags as text. -/
  | rdumpf
  /-- R92: read the AM byte at address `a`. -/
  | mrd (a : Half)
  /-- R93: write the AM byte at address `a`. -/
  | mwr (a : Half) (v : Byte)
  /-- R94: fill a span. -/
  | mfill (v : Byte) (sp : Span)
  /-- R95: dump a span as text. -/
  | mdump (sp : Span)
  /-- R99: save a span to file `h`. -/
  | msave (h : Half) (sp : Span)
  /-- R100: load the whole block from file `h`. -/
  | mload (h : Half)
  /-- R101: BASE. -/
  | mbegin
  /-- R102: END. -/
  | mend
  /-- R103: CAP. -/
  | msize
deriving DecidableEq, Repr

/-- The named byte registers that GET and PUT take (30_encoding.md R83). -/
inductive ByteReg where
  | a | f | b | c | d | e | h | l
  | a' | f' | b' | c' | d' | e' | h' | l'
  | i | r
deriving DecidableEq, Repr

/-- The named word registers (10_state.md R26). -/
inductive WordReg where
  | af | bc | de | hl | af' | bc' | de' | hl' | sp | pc | ix | iy
deriving DecidableEq, Repr

/-- One line of the assembler listing (30_encoding.md R82) or one pseudo-command (R83). Numbers are as written,
of any size: `AsmLine.wellFormed` refuses those that do not fit. -/
inductive AsmLine where
  | rrdb (o : Nat)
  | rwrb (o v : Nat)
  | rrdw (o : Nat)
  | rwrw (o v : Nat)
  | rgetf (f : Flag)
  | rsetf (f : Flag)
  | rclrf (f : Flag)
  | rdumpf
  | mrd (a : Nat)
  | mwr (a v : Nat)
  | mfill (v : Nat) (sp : Option (Nat × Nat))
  | mdump (sp : Option (Nat × Nat))
  | msave (h : Nat) (sp : Option (Nat × Nat))
  | mload (h : Nat)
  | mbegin
  | mend
  | msize
  | getByte (reg : ByteReg)
  | putByte (reg : ByteReg) (v : Nat)
  | getWord (reg : WordReg)
  | putWord (reg : WordReg) (v : Nat)
deriving DecidableEq, Repr

/-- The construction modes of an AM instance (70_reset_and_hazards.md R181). -/
inductive MemInit where
  /-- `Random(lo, hi)` (R182). -/
  | random (lo hi : Byte)
  /-- `Fill(v)` (R183). -/
  | fill (v : Byte)
  /-- `Image(h)` (R184). -/
  | image (h : Half)
deriving DecidableEq, Repr

/-- `Random` with the default range `[0, 255]` (R182). -/
def MemInit.randomDefault : MemInit := .random 0 255

/-- What AM construction takes (R8, R181). -/
structure AmConfig where
  base : Half
  cap  : Nat
  init : MemInit
deriving DecidableEq, Repr

end Sys2Proof
end

