-- ==== Sys2Proof/WellFormed.lean ====
section
/-! DEFINITION. The checks on written terms: an assembler line, an AM configuration and a register layout. Every term of `Instr` is
well-formed, because each operand has exactly the values its field of the command word can spell (30_encoding.md
R72, R77): there is nothing left to check there. -/

namespace Sys2Proof

/-- A number fits a field of `n` bits. -/
def fits (n v : Nat) : Bool := decide (v < 2 ^ n)

/-- Both ends of a written span fit the 16-bit fields A0 and A1. -/
def spanFits : Option (Nat × Nat) → Bool
  | none => true
  | some (b, e) => fits 16 b && fits 16 e

/-- "An assembler refuses a value that does not fit its field" (30_encoding.md R82), with the ranges that rule's
table gives RWRB, RWRW and MWR. DESIGN CHOICE, log 20: MFILL's `v`, to which the table gives no range, is a byte;
and RWRB and MWR keep the table's range where lines of 95_test_vectors.md exceed it. -/
def AsmLine.wellFormed : AsmLine → Bool
  | .rrdb o => fits 16 o
  | .rwrb o v => fits 16 o && fits 8 v
  | .rrdw o => fits 16 o
  | .rwrw o v => fits 16 o && fits 16 v
  | .rgetf _ => true
  | .rsetf _ => true
  | .rclrf _ => true
  | .rdumpf => true
  | .mrd a => fits 16 a
  | .mwr a v => fits 16 a && fits 8 v
  | .mfill v sp => fits 8 v && spanFits sp
  | .mdump sp => spanFits sp
  | .msave h sp => fits 16 h && spanFits sp
  | .mload h => fits 16 h
  | .mbegin => true
  | .mend => true
  | .msize => true
  | .getByte _ => true
  | .putByte _ v => fits 8 v
  | .getWord _ => true
  | .putWord _ v => fits 16 v

/-- `Random(lo, hi)` needs `lo <= hi` (70_reset_and_hazards.md R182). -/
def MemInit.wellFormed : MemInit → Bool
  | .random lo hi => decide (lo.toNat ≤ hi.toNat)
  | .fill _ => true
  | .image _ => true

/-- A configuration the block accepts: `CAP > 0`, `BASE + CAP - 1 <= 0xFFFF` (00_scope.md R8), and the mode's own
condition. -/
def AmConfig.wellFormed (c : AmConfig) : Bool :=
  decide (0 < c.cap) && decide (c.base.toNat + c.cap - 1 ≤ 0xFFFF) && c.init.wellFormed

/-- The offsets of a layout, in the order of the table of 10_state.md R25. -/
def Config.RegLayout.offsets (t : Config.RegLayout) : List (Fin 26) :=
  [t.a, t.f, t.b, t.c, t.d, t.e, t.h, t.l, t.a', t.f', t.b', t.c', t.d', t.e', t.h', t.l', t.i, t.r,
   t.spLow, t.spHigh, t.pcLow, t.pcHigh, t.ixLow, t.ixHigh, t.iyLow, t.iyHigh]

/-- The offsets of the pairs of a layout: first the low byte's, then the high byte's. -/
def Config.RegLayout.pairs (t : Config.RegLayout) : List (Fin 26 × Fin 26) :=
  [(t.a, t.f), (t.b, t.c), (t.d, t.e), (t.h, t.l), (t.a', t.f'), (t.b', t.c'), (t.d', t.e'), (t.h', t.l'),
   (t.spLow, t.spHigh), (t.pcLow, t.pcHigh), (t.ixLow, t.ixHigh), (t.iyLow, t.iyHigh)]

/-- A layout gives every named byte an offset of its own, and "every pair `XY` has `X` at the lower offset", `Y` at
the next (R25, R26). -/
def Config.RegLayout.wellFormed (t : Config.RegLayout) : Bool :=
  decide t.offsets.Nodup && t.pairs.all fun p => p.1.val + 1 == p.2.val

end Sys2Proof
end

