-- ==== Sys2Proof/Decode.lean ====
section
/-! DEFINITION. The command word: its fields, the decoder and the encoder (30_encoding.md R72 to R81). -/

namespace Sys2Proof

/-! ### Fields of the word (R72) -/

/-- OP, bits 63:59. -/
def fieldOp (w : CmdWord) : BitVec 5 := w.extractLsb' 59 5
/-- FSEL, bits 58:56. -/
def fieldFsel (w : CmdWord) : BitVec 3 := w.extractLsb' 56 3
/-- RNG, bit 55. -/
def fieldRng (w : CmdWord) : BitVec 1 := w.extractLsb' 55 1
/-- RSV, bits 54:48. -/
def fieldRsv (w : CmdWord) : BitVec 7 := w.extractLsb' 48 7
/-- A0, bits 47:32. -/
def fieldA0 (w : CmdWord) : Half := w.extractLsb' 32 16
/-- A1, bits 31:16. -/
def fieldA1 (w : CmdWord) : Half := w.extractLsb' 16 16
/-- D, bits 15:0. -/
def fieldD (w : CmdWord) : Half := w.extractLsb' 0 16
/-- `D[7:0]`, the byte datum; `D[15:8]` is ignored (R76). -/
def fieldByte (w : CmdWord) : Byte := w.extractLsb' 0 8

/-! ### The opcode map (R74) -/

/-- The assigned values of OP. -/
inductive Opcode where
  | rrdb | rwrb | rrdw | rwrw | rgetf | rsetf | rclrf | rdumpf
  | mrd | mwr | mfill | mdump | msave | mload | mbegin | mend | msize
deriving DecidableEq, Repr

/-- The OP column of R74. -/
def Opcode.bits : Opcode → BitVec 5
  | .rrdb => 0x00 | .rwrb => 0x01 | .rrdw => 0x02 | .rwrw => 0x03
  | .rgetf => 0x04 | .rsetf => 0x05 | .rclrf => 0x06 | .rdumpf => 0x07
  | .mrd => 0x10 | .mwr => 0x11 | .mfill => 0x12 | .mdump => 0x13
  | .msave => 0x14 | .mload => 0x15 | .mbegin => 0x16 | .mend => 0x17 | .msize => 0x18

/-- The command an OP value selects; 0x08 to 0x0F and 0x19 to 0x1F are reserved (R74, R80). -/
def Opcode.ofBits (op : BitVec 5) : Option Opcode :=
  match op.toNat with
  | 0x00 => some .rrdb | 0x01 => some .rwrb | 0x02 => some .rrdw | 0x03 => some .rwrw
  | 0x04 => some .rgetf | 0x05 => some .rsetf | 0x06 => some .rclrf | 0x07 => some .rdumpf
  | 0x10 => some .mrd | 0x11 => some .mwr | 0x12 => some .mfill | 0x13 => some .mdump
  | 0x14 => some .msave | 0x15 => some .mload | 0x16 => some .mbegin | 0x17 => some .mend
  | 0x18 => some .msize
  | _ => none

/-- A flag's FSEL value, its bit number in F (R77). -/
def Flag.fsel : Flag → BitVec 3
  | .c => 0 | .n => 1 | .pv => 2 | .h => 4 | .z => 6 | .s => 7

/-- The flag FSEL names; 3 and 5 spell none (R77, R80). -/
def Flag.ofFsel (b : BitVec 3) : Option Flag :=
  match b.toNat with
  | 0 => some .c | 1 => some .n | 2 => some .pv | 4 => some .h | 6 => some .z | 7 => some .s
  | _ => none

/-! ### Decoding (R75) -/

/-- Why a word spells no command (R80 (a), (b), (c)). All three are reported as `IllegalCommand`. -/
inductive DecodeError where
  | reservedOp
  | reservedBits
  | noSuchFlag
deriving DecidableEq, Repr

/-- The span of MFILL, MDUMP and MSAVE by RNG (R78). -/
def spanOf (w : CmdWord) : Span :=
  if fieldRng w = 1 then .range (fieldA0 w) (fieldA1 w) else .whole

/-- A flag command from its FSEL field. -/
def flagCommand (w : CmdWord) (mk : Flag → Instr) : Except DecodeError Instr :=
  match Flag.ofFsel (fieldFsel w) with
  | some f => .ok (mk f)
  | none => .error .noSuchFlag

/-- The command of a word whose OP selects `op` and whose RSV is zero, with its operands (R74, R76). -/
def decodeOperands (w : CmdWord) : Opcode → Except DecodeError Instr
  | .rrdb => .ok (.rrdb (fieldA0 w))
  | .rwrb => .ok (.rwrb (fieldA0 w) (fieldByte w))
  | .rrdw => .ok (.rrdw (fieldA0 w))
  | .rwrw => .ok (.rwrw (fieldA0 w) (fieldD w))
  | .rgetf => flagCommand w .rgetf
  | .rsetf => flagCommand w .rsetf
  | .rclrf => flagCommand w .rclrf
  | .rdumpf => .ok .rdumpf
  | .mrd => .ok (.mrd (fieldA0 w))
  | .mwr => .ok (.mwr (fieldA0 w) (fieldByte w))
  | .mfill => .ok (.mfill (fieldByte w) (spanOf w))
  | .mdump => .ok (.mdump (spanOf w))
  | .msave => .ok (.msave (fieldD w) (spanOf w))
  | .mload => .ok (.mload (fieldD w))
  | .mbegin => .ok .mbegin
  | .mend => .ok .mend
  | .msize => .ok .msize

/-- Decode a command word: OP first, then RSV, then FSEL of the flag commands (R75). Total, and a function of the
word alone. -/
def decode (w : CmdWord) : Except DecodeError Instr :=
  match Opcode.ofBits (fieldOp w) with
  | none => .error .reservedOp
  | some op => if fieldRsv w = 0 then decodeOperands w op else .error .reservedBits

/-- The decoder on a word numbered as the opcode table numbers it (log 12). -/
def decodeTableWord (nbits w : Nat) : Option Instr :=
  match decode (BitVec.ofNat 64 (w % 2 ^ nbits)) with
  | .ok i => some i
  | .error _ => none

/-! ### Encoding (R73, R82) -/

/-- The word with the given fields and RSV = 0, OP in the most significant place (R73). -/
def assembleWord (op : Opcode) (fsel : BitVec 3) (rng : BitVec 1) (a0 a1 d : Half) : CmdWord :=
  op.bits ++ fsel ++ rng ++ 0#7 ++ a0 ++ a1 ++ d

/-- RNG of a span (R78). -/
def Span.rng : Span → BitVec 1
  | .whole => 0
  | .range _ _ => 1

/-- A0 of a span; 0 where none is given ("All fields not listed assemble as 0", R82). -/
def Span.a0 : Span → Half
  | .whole => 0
  | .range b _ => b

/-- A1 of a span; 0 where none is given. -/
def Span.a1 : Span → Half
  | .whole => 0
  | .range _ e => e

/-- The command word of a command (R82's table). -/
def encode : Instr → CmdWord
  | .rrdb o => assembleWord .rrdb 0 0 o 0 0
  | .rwrb o v => assembleWord .rwrb 0 0 o 0 (v.zeroExtend 16)
  | .rrdw o => assembleWord .rrdw 0 0 o 0 0
  | .rwrw o v => assembleWord .rwrw 0 0 o 0 v
  | .rgetf f => assembleWord .rgetf f.fsel 0 0 0 0
  | .rsetf f => assembleWord .rsetf f.fsel 0 0 0 0
  | .rclrf f => assembleWord .rclrf f.fsel 0 0 0 0
  | .rdumpf => assembleWord .rdumpf 0 0 0 0 0
  | .mrd a => assembleWord .mrd 0 0 a 0 0
  | .mwr a v => assembleWord .mwr 0 0 a 0 (v.zeroExtend 16)
  | .mfill v sp => assembleWord .mfill 0 sp.rng sp.a0 sp.a1 (v.zeroExtend 16)
  | .mdump sp => assembleWord .mdump 0 sp.rng sp.a0 sp.a1 0
  | .msave h sp => assembleWord .msave 0 sp.rng sp.a0 sp.a1 h
  | .mload h => assembleWord .mload 0 0 0 0 h
  | .mbegin => assembleWord .mbegin 0 0 0 0 0
  | .mend => assembleWord .mend 0 0 0 0 0
  | .msize => assembleWord .msize 0 0 0 0 0

/-- The opcode of a command. -/
def Instr.opcode : Instr → Opcode
  | .rrdb _ => .rrdb
  | .rwrb _ _ => .rwrb
  | .rrdw _ => .rrdw
  | .rwrw _ _ => .rwrw
  | .rgetf _ => .rgetf
  | .rsetf _ => .rsetf
  | .rclrf _ => .rclrf
  | .rdumpf => .rdumpf
  | .mrd _ => .mrd
  | .mwr _ _ => .mwr
  | .mfill _ _ => .mfill
  | .mdump _ => .mdump
  | .msave _ _ => .msave
  | .mload _ => .mload
  | .mbegin => .mbegin
  | .mend => .mend
  | .msize => .msize

/-- The bits of a command word that select and feed a command: OP, RSV and the "fields used" column of R74, with
R76 for `D[15:8]`, R77 for FSEL and R78 for A0 and A1, which RNG = 0 lets go. Every other bit is ignored (R79). -/
def Instr.usedBits : Instr → CmdWord
  | .rrdb _ => 0xF87FFFFF00000000
  | .rwrb _ _ => 0xF87FFFFF000000FF
  | .rrdw _ => 0xF87FFFFF00000000
  | .rwrw _ _ => 0xF87FFFFF0000FFFF
  | .rgetf _ => 0xFF7F000000000000
  | .rsetf _ => 0xFF7F000000000000
  | .rclrf _ => 0xFF7F000000000000
  | .rdumpf => 0xF87F000000000000
  | .mrd _ => 0xF87FFFFF00000000
  | .mwr _ _ => 0xF87FFFFF000000FF
  | .mfill _ .whole => 0xF8FF0000000000FF
  | .mfill _ (.range _ _) => 0xF8FFFFFFFFFF00FF
  | .mdump .whole => 0xF8FF000000000000
  | .mdump (.range _ _) => 0xF8FFFFFFFFFF0000
  | .msave _ .whole => 0xF8FF00000000FFFF
  | .msave _ (.range _ _) => 0xF8FFFFFFFFFFFFFF
  | .mload _ => 0xF87F00000000FFFF
  | .mbegin => 0xF87F000000000000
  | .mend => 0xF87F000000000000
  | .msize => 0xF87F000000000000

end Sys2Proof
end

