-- ==== Sys2Proof/Machine/State.lean ====
section
/-! DEFINITION. The state of the block and its surroundings as plain data, the reasons a step can stop, and the
state right after reset. -/

namespace Sys2Proof.Machine

/-- What construction leaves in the AM cells (10_state.md R35), which is what a cell reads as while unlisted
(log 11). -/
inductive Contents where
  /-- `Fill(v)` (70_reset_and_hazards.md R183): every cell `v`. -/
  | filled (v : Byte)
  /-- `Random(lo, hi)` (R182), in construction number `k`: cell `i` a draw within `[lo, hi]`. -/
  | drawn (lo hi : Byte) (k : Nat)
  /-- `Image(h)` (R184): cell `i` is file byte `i`. -/
  | image (bytes : List Byte)
deriving DecidableEq, Repr

/-- The AM storage (10_state.md R20): what construction left, and in `cells`, by storage index, the cells that hold
something else now. -/
structure Memory where
  contents : Contents
  cells : List Host.Cell
deriving DecidableEq, Repr

/-- An Addressed Memory unit: its configuration (10_state.md R21) and its storage. -/
structure Am where
  base : Half
  cap : Nat
  mem : Memory
deriving DecidableEq, Repr

/-- A Register File unit's storage: 26 byte cells (10_state.md R24; 00_scope.md R10). -/
structure Rf where
  bytes : Vector Byte 26
deriving DecidableEq, Repr

/-- The errors of 60_exceptions.md R160, each with the info that rule lets a model keep (log 10). -/
inductive Error where
  /-- STATUS 1: an address or offset outside its store (R90, R130). -/
  | outOfRange (a : Nat)
  /-- STATUS 1: a span that lies outside the window (R91 (3)). -/
  | spanOutOfRange (b e : Nat)
  /-- STATUS 2: a reversed span, or one longer than the block (R91 (1), (2)). -/
  | overflowError (b e : Nat)
  /-- STATUS 3. -/
  | fileNotFound (h : Half)
  /-- STATUS 4, with the file's length. -/
  | sizeMismatch (n : Nat)
  /-- STATUS 5. -/
  | fileAlreadyExists (h : Half)
  /-- STATUS 6. -/
  | illegalCommand (w : CmdWord)
deriving DecidableEq, Repr

/-- How a command ends (00_scope.md R15): `return OK(rdata)` or `raise <Error>(info)`. -/
inductive Response where
  | ok (rdata : RData)
  | error (e : Error)
deriving DecidableEq, Repr

/-- The storage of one instance: it is an AM unit or an RF unit, never both ("no shared state", 20_memory.md R50,
R66). -/
inductive Store where
  | am (m : Am)
  | rf (x : Rf)
deriving DecidableEq, Repr

/-- One instance behind its own command port: its one owner (20_memory.md R63; 60_exceptions.md R171), its storage,
and the response of its last command (30_encoding.md R70). Log 6, log 9. -/
structure Block where
  owner : Nat
  store : Store
  response : Option Response
deriving DecidableEq, Repr

/-- What the outside asks of the machine, one thing a step. Only `command` is a command of the block; the others
are the host's (log 8). Agents and ports are numbers of the model's own (60_exceptions.md R171). -/
inductive Request where
  /-- An agent presents a command word at a port (30_encoding.md R70). -/
  | command (agent port : Nat) (w : CmdWord)
  /-- Construct an AM instance (70_reset_and_hazards.md R181). -/
  | constructAm (agent port : Nat) (cfg : AmConfig)
  /-- Construct an RF instance (R186). -/
  | constructRf (agent port : Nat)
  /-- Destroy the instance at a port (R187). -/
  | destroy (agent port : Nat)
  /-- Hand the instance at a port over to another agent (20_memory.md R63). DESIGN CHOICE, log 21: its owner asks. -/
  | handOver (agent port newOwner : Nat)
  /-- The host makes file `h` hold `content`, or removes it, between commands (20_memory.md R60; R189, R191). -/
  | hostFile (h : Half) (content : Option (List Byte))
deriving DecidableEq, Repr

/-- What the host that asked for a construction is told (70_reset_and_hazards.md R185). Log 15. -/
inductive LaunchReport where
  /-- The instance exists. -/
  | constructed
  /-- `Image(h)` failed: FileNotFound or SizeMismatch (R184). -/
  | failed (e : Error)
  /-- The configuration breaks 00_scope.md R8 or 70_reset_and_hazards.md R182. -/
  | configRefused
deriving DecidableEq, Repr

/-- The machine. -/
structure State where
  /-- The live instances by port, ports strictly rising (60_exceptions.md R171). -/
  blocks : List (Nat × Block)
  /-- The port whose command is being performed (the model's own, log 6). -/
  port : Nat
  /-- The host file table FS by handle, handles strictly rising; an unlisted handle is absent (20_memory.md R60). -/
  files : List (Nat × List Byte)
  /-- The text emitted by `Out`, oldest character first (00_scope.md R15). -/
  out : List Char
  /-- The requests not yet taken, oldest first (the model's own, log 8). -/
  inbox : List Request
  /-- How many constructions have been made: the number of the next one's draws (the model's own, log 5). -/
  draws : Nat
  /-- The report on the last construction (log 15). -/
  launch : Option LaunchReport
deriving DecidableEq, Repr

/-- Where a request has no step. Each is SAFE: the model stops where the spec names no effect. Log 7. -/
inductive Fault where
  /-- Raised by a request to a port where nothing is constructed: "After destruction no command reaches the
  instance" (70_reset_and_hazards.md R187); a failed construction "produces no instance: no command can be issued
  to it" (R185). Safe. -/
  | noBlock
  /-- Raised by a command at the port of an instance of the other unit: OP[4] selects a unit that does not stand
  there (30_encoding.md R72; 60_exceptions.md R171). Safe. -/
  | noUnit
  /-- Raised by a request of an agent that does not own the instance: "no step (stuck)" (20_memory.md R63). Safe. -/
  | notOwner
  /-- Raised by constructing at the port of a live instance: "there is no reset of a live instance except by
  destroying it and constructing a new one" (R180). Safe. -/
  | unitExists
deriving DecidableEq, Repr

/-- The refusals of the machine. -/
inductive Refusal where
  /-- Raised by `exec` for an instruction that has no meaning yet; no arm does. Safe. -/
  | notModelled (mnemonic : String)
deriving DecidableEq, Repr

/-- The RF contents of construction number `k`: "an arbitrary pattern from construction until first written"
(10_state.md R34). Log 2. -/
def Rf.construct (k : Nat) : Rf := { bytes := Vector.ofFn fun o => Config.rfDraw k o }

/-- Right after reset, which is construction (70_reset_and_hazards.md R180): an AM instance at port 0 and then an RF
instance at port 1, constructed by agent 0, no command issued yet (log 6). The launch parameters are `Config`'s
(log 1), the RF bytes free values (log 2), the file table empty (log 13). -/
def State.reset : State where
  blocks := [
    (0, { owner := 0
          store := .am { base := Config.resetBase, cap := Config.resetCap,
                         mem := { contents := .filled Config.resetFill, cells := [] } }
          response := none }),
    (1, { owner := 0, store := .rf (Rf.construct 1), response := none })]
  port := 0
  files := []
  out := []
  inbox := []
  draws := 2
  launch := some .constructed

end Sys2Proof.Machine
end

