-- ==== Sys2Proof/Machine/Ops.lean ====
section
/-! DEFINITION. The operations the commands share: bytes and words, tables by key, AM storage, RF storage, the
units behind the current port, and the two ways a command ends. -/

namespace Sys2Proof.Machine

/-- What a step answers. -/
abbrev Result := Host.Outcome State Fault Refusal

/-! ### Bytes and words (00_scope.md R12, R13) -/

/-- `low8(v) = v[7:0]`. -/
def low8 (v : Half) : Byte := v.extractLsb' 0 8

/-- `high8(v) = v[15:8]`. -/
def high8 (v : Half) : Byte := v.extractLsb' 8 8

/-- `{hi, lo}`: the word whose low byte is `lo` (20_memory.md R52). -/
def word (hi lo : Byte) : Half := hi ++ lo

/-- `sval(b)`: the signed value of a byte (R13). -/
def sval (b : Byte) : Int := b.toInt

/-- A byte result in RDATA: `zext_32` of the pattern (30_encoding.md R71). -/
def zextByte (b : Byte) : RData := b.zeroExtend 32

/-- A word result in RDATA. -/
def zextWord (v : Half) : RData := v.zeroExtend 32

/-! ### Tables: lists of (key, value), keys strictly rising -/

namespace Table

variable {α : Type}

/-- The value at key `k`. -/
def lookup (k : Nat) : List (Nat × α) → Option α
  | [] => none
  | (j, v) :: t => if k = j then some v else lookup k t

/-- The table with `v` at key `k`. -/
def insert (k : Nat) (v : α) : List (Nat × α) → List (Nat × α)
  | [] => [(k, v)]
  | (j, w) :: t =>
    if k < j then (k, v) :: (j, w) :: t
    else if k = j then (k, v) :: t
    else (j, w) :: insert k v t

/-- The table without key `k`. -/
def erase (k : Nat) : List (Nat × α) → List (Nat × α)
  | [] => []
  | (j, w) :: t => if k = j then erase k t else (j, w) :: erase k t

/-- The table with `f` applied to the value at key `k`, if there is one. -/
def modify (k : Nat) (f : α → α) : List (Nat × α) → List (Nat × α)
  | [] => []
  | (j, w) :: t => if k = j then (j, f w) :: t else (j, w) :: modify k f t

/-- The canonical form: keys strictly rising. -/
abbrev Rising (l : List (Nat × α)) : Prop := l.Pairwise fun p q => p.1 < q.1

end Table

/-! ### AM storage -/

/-- What cell `i` holds from construction until it is written (70_reset_and_hazards.md R182 to R184). A random
cell is `lo` plus the draw taken modulo the size of `[lo, hi]`, so it is any value of the range and no other. -/
def Contents.byte : Contents → Nat → Byte
  | .filled v, _ => v
  | .drawn lo hi k, i => lo + BitVec.ofNat 8 ((Config.rand k i).toNat % (hi.toNat - lo.toNat + 1))
  | .image bytes, i => bytes.getD i 0

/-- `mem[i]` (00_scope.md R14). -/
def Memory.read (m : Memory) (i : Nat) : Byte := (Table.lookup i m.cells).getD (m.contents.byte i)

/-- `mem[i] <- v`, keeping the canonical form. -/
def Memory.write (m : Memory) (i : Nat) (v : Byte) : Memory :=
  { m with cells := if v = m.contents.byte i then Table.erase i m.cells else Table.insert i v m.cells }

/-- `mem[i] <- bytes[0], mem[i+1] <- bytes[1], ...`. -/
def Memory.writeBytes (m : Memory) (i : Nat) : List Byte → Memory
  | [] => m
  | v :: bytes => (m.writeBytes (i + 1) bytes).write i v

/-- `[mem[i], mem[i+1], ...]`, `n` bytes. -/
def Memory.readBytes (m : Memory) (i : Nat) : Nat → List Byte
  | 0 => []
  | n + 1 => m.read i :: m.readBytes (i + 1) n

/-- The canonical form of AM storage of `cap` cells: indexes strictly rising and below `cap`, and no entry equal
to what the cell reads as when unlisted. -/
abbrev Memory.wf (m : Memory) (cap : Nat) : Prop :=
  Table.Rising m.cells ∧ ∀ p ∈ m.cells, p.1 < cap ∧ p.2 ≠ m.contents.byte p.1

/-- `END = BASE + CAP - 1` (10_state.md R21). -/
def Am.last (m : Am) : Nat := m.base.toNat + m.cap - 1

/-- The storage index of a valid external address: `a - BASE` (10_state.md R22). -/
def Am.index (m : Am) (a : Nat) : Nat := a - m.base.toNat

/-- `MemRead(a, 1)` (00_scope.md R14). -/
def Am.read (m : Am) (a : Nat) : Byte := m.mem.read (m.index a)

/-- `MemWrite(a, 1, v)` (00_scope.md R14). -/
def Am.write (m : Am) (a : Nat) (v : Byte) : Am := { m with mem := m.mem.write (m.index a) v }

/-- `MemWrite` of successive bytes from address `a` up. -/
def Am.writeBytes (m : Am) (a : Nat) (bytes : List Byte) : Am :=
  { m with mem := m.mem.writeBytes (m.index a) bytes }

/-- The bytes at addresses `b .. e`, ascending (20_memory.md R61). -/
def Am.bytes (m : Am) (b e : Nat) : List Byte := m.mem.readBytes (m.index b) (e + 1 - b)

/-! ### RF storage (10_state.md R24, R27; 20_memory.md R52) -/

/-- `x[o]`. -/
def Rf.byte (x : Rf) (o : Fin 26) : Byte := x.bytes[o.val]

/-- `x[o] <- v`. -/
def Rf.setByte (x : Rf) (o : Fin 26) (v : Byte) : Rf := { bytes := x.bytes.set o v }

/-- The word view at `o`: `{x[o+1], x[o]}`. -/
def Rf.word (x : Rf) (o : Fin 25) : Half := Machine.word (x.byte o.succ) (x.byte o.castSucc)

/-- A word write at `o`: `x[o] <- low8(v)`, `x[o+1] <- high8(v)`. -/
def Rf.setWord (x : Rf) (o : Fin 25) (v : Half) : Rf :=
  (x.setByte o.castSucc (low8 v)).setByte o.succ (high8 v)

/-! ### The units of an instance -/

/-- The AM unit of an instance, if it is one. -/
def Block.am (b : Block) : Option Am :=
  match b.store with
  | .am m => some m
  | .rf _ => none

/-- The RF unit of an instance, if it is one. -/
def Block.rf (b : Block) : Option Rf :=
  match b.store with
  | .am _ => none
  | .rf x => some x

/-- An AM instance with its unit replaced; an RF instance is left as it is. -/
def Block.setAm (b : Block) (m : Am) : Block :=
  match b.store with
  | .am _ => { b with store := .am m }
  | .rf _ => b

/-- An RF instance with its unit replaced; an AM instance is left as it is. -/
def Block.setRf (b : Block) (x : Rf) : Block :=
  match b.store with
  | .am _ => b
  | .rf _ => { b with store := .rf x }

/-! ### The instance behind the current port -/

/-- The instance whose port takes the command. -/
def State.here (s : State) : Option Block := Table.lookup s.port s.blocks

/-- The AM unit behind the current port. -/
def State.am (s : State) : Option Am := s.here.bind Block.am

/-- The RF unit behind the current port. -/
def State.rf (s : State) : Option Rf := s.here.bind Block.rf

/-- The response that stands at the current port. -/
def State.response (s : State) : Option Response := s.here.bind Block.response

/-- The state with the current port's instance changed. -/
def State.modifyHere (s : State) (f : Block → Block) : State :=
  { s with blocks := Table.modify s.port f s.blocks }

/-- The state with the AM unit behind the current port replaced. -/
def State.setAm (s : State) (m : Am) : State := s.modifyHere (Block.setAm · m)

/-- The state with the RF unit behind the current port replaced. -/
def State.setRf (s : State) (x : Rf) : State := s.modifyHere (Block.setRf · x)

/-- The state with `r` as the response at the current port (30_encoding.md R70). -/
def State.reply (s : State) (r : Response) : State := s.modifyHere fun b => { b with response := some r }

/-- `Out(text)` (00_scope.md R15). -/
def State.emit (s : State) (text : List Char) : State := { s with out := s.out ++ text }

/-- `FS(h)`: `none` is absent (20_memory.md R60). -/
def State.file (s : State) (h : Half) : Option (List Byte) := Table.lookup h.toNat s.files

/-- `FSWrite(h, bytes)` (20_memory.md R60). -/
def State.setFile (s : State) (h : Half) (bytes : List Byte) : State :=
  { s with files := Table.insert h.toNat bytes s.files }

/-! ### How a command ends (00_scope.md R15) -/

/-- `return OK(rdata)`. -/
def done (r : RData) (s : State) : Result := .next (s.reply (.ok r))

/-- `raise e`: the command's response is the error and nothing else is written; there is no trap entry, no return
and no mode, and the next command runs as if it had not happened (60_exceptions.md R161, R165, R166). -/
def raise (e : Error) (s : State) : Result := .next (s.reply (.error e))

/-- Go on with the value of a check that passed, or raise its error. -/
def orRaise {α : Type} (check : Except Error α) (s : State) (k : α → Result) : Result :=
  match check with
  | .ok a => k a
  | .error e => raise e s

/-- The AM unit that takes the command; without one the command has no step. -/
def withAm (s : State) (k : Am → Result) : Result :=
  match s.am with
  | some m => k m
  | none => .fault .noUnit

/-- The RF unit that takes the command; without one the command has no step. -/
def withRf (s : State) (k : Rf → Result) : Result :=
  match s.rf with
  | some x => k x
  | none => .fault .noUnit

/-! ### The response as the port shows it (30_encoding.md R71; 60_exceptions.md R160) -/

/-- The STATUS code of an error. -/
def Error.status : Error → BitVec 4
  | .outOfRange _ => 1
  | .spanOutOfRange _ _ => 1
  | .overflowError _ _ => 2
  | .fileNotFound _ => 3
  | .sizeMismatch _ => 4
  | .fileAlreadyExists _ => 5
  | .illegalCommand _ => 6

/-- STATUS: 0 is OK. -/
def Response.status : Response → BitVec 4
  | .ok _ => 0
  | .error e => e.status

/-- RDATA: 0 on an error. -/
def Response.rdata : Response → RData
  | .ok r => r
  | .error _ => 0

end Sys2Proof.Machine
end

