-- ==== Sys2Proof/Machine/Operands.lean ====
section
/-! DEFINITION. The operand forms and their checks: RF offsets, register names, AM addresses and spans. -/

namespace Sys2Proof

/-! ### Named registers: where the configuration table puts them -/

/-- The offset a layout gives a byte register (10_state.md R25). -/
def Config.RegLayout.byte (t : Config.RegLayout) : ByteReg → Fin 26
  | .a => t.a | .f => t.f | .b => t.b | .c => t.c | .d => t.d | .e => t.e | .h => t.h | .l => t.l
  | .a' => t.a' | .f' => t.f' | .b' => t.b' | .c' => t.c' | .d' => t.d' | .e' => t.e' | .h' => t.h' | .l' => t.l'
  | .i => t.i | .r => t.r

/-- The offset a layout gives the low byte of a word register: the "(low)" entries of R25's table. -/
def Config.RegLayout.low (t : Config.RegLayout) : WordReg → Fin 26
  | .af => t.a | .bc => t.b | .de => t.d | .hl => t.h | .af' => t.a' | .bc' => t.b' | .de' => t.d' | .hl' => t.h'
  | .sp => t.spLow | .pc => t.pcLow | .ix => t.ixLow | .iy => t.iyLow

/-- The offset a layout gives the high byte of a word register: the "(high)" entries of R25's table. -/
def Config.RegLayout.high (t : Config.RegLayout) : WordReg → Fin 26
  | .af => t.f | .bc => t.c | .de => t.e | .hl => t.l | .af' => t.f' | .bc' => t.c' | .de' => t.e' | .hl' => t.l'
  | .sp => t.spHigh | .pc => t.pcHigh | .ix => t.ixHigh | .iy => t.iyHigh

/-- The offset of a byte register: the table's entry (R25). -/
def ByteReg.offset (reg : ByteReg) : Fin 26 := Config.regLayout.byte reg

/-- The word offset of a word register: the offset of its low byte, which leaves room for the high one (R26). -/
def WordReg.offset (reg : WordReg) : Fin 25 :=
  ⟨(Config.regLayout.low reg).val, by cases reg <;> decide⟩

namespace Machine

/-- ByteCheck (41_register_file.md R130): an offset below 26, else `OutOfRange(o)`. -/
def byteOffset (o : Half) : Except Error (Fin 26) :=
  if h : o.toNat < 26 then .ok ⟨o.toNat, h⟩ else .error (.outOfRange o.toNat)

/-- WordCheck (41_register_file.md R130): `o + 1 < 26`, computed without wrap, else `OutOfRange(o)`. -/
def wordOffset (o : Half) : Except Error (Fin 25) :=
  if h : o.toNat + 1 < 26 then .ok ⟨o.toNat, by omega⟩ else .error (.outOfRange o.toNat)

/-- AddrCheck (40_addressed_memory.md R90): `BASE <= a <= END`, else `OutOfRange(a)`. -/
def address (m : Am) (a : Half) : Except Error Nat :=
  if a.toNat < m.base.toNat ∨ m.last < a.toNat then .error (.outOfRange a.toNat) else .ok a.toNat

/-- ResolveSpan (40_addressed_memory.md R91; 30_encoding.md R78). -/
def resolveSpan (m : Am) : Span → Nat × Nat
  | .whole => (m.base.toNat, m.last)
  | .range b e => (b.toNat, e.toNat)

/-- SpanCheck (40_addressed_memory.md R91): reversed, then too long, then outside the window. -/
def spanCheck (m : Am) (b e : Nat) : Except Error (Nat × Nat) :=
  if e < b then .error (.overflowError b e)
  else if m.cap < e - b + 1 then .error (.overflowError b e)
  else if b < m.base.toNat ∨ m.last < e then .error (.spanOutOfRange b e)
  else .ok (b, e)

/-- The checked span of MFILL, MDUMP and MSAVE. -/
def span (m : Am) (sp : Span) : Except Error (Nat × Nat) :=
  spanCheck m (resolveSpan m sp).1 (resolveSpan m sp).2

end Machine
end Sys2Proof
end

