-- ==== Sys2Proof/Machine/Dump.lean ====
section
/-! DEFINITION. The text of MDUMP (40_addressed_memory.md R95 to R98; 00_scope.md R9). -/

namespace Sys2Proof.Machine

/-- One uppercase hexadecimal digit. -/
def hexDigit (n : Nat) : Char := if n < 10 then Char.ofNat (48 + n) else Char.ofNat (55 + n)

/-- `HEX2(c)`: the two uppercase digits of the pattern (R98). -/
def hex2 (c : Byte) : List Char := [hexDigit (c.toNat / 16), hexDigit (c.toNat % 16)]

/-- `HEX4(n)`: the four uppercase digits of a 16-bit address (R98). -/
def hex4 (n : Nat) : List Char :=
  [hexDigit (n / 4096 % 16), hexDigit (n / 256 % 16), hexDigit (n / 16 % 16), hexDigit (n % 16)]

/-- `ASC(c)`: a byte whose signed value is below 32 or equal to 127 shows as `.` (R97). -/
def asciiChar (c : Byte) : Char := if sval c < 32 ∨ sval c = 127 then '.' else Char.ofNat c.toNat

/-- A hex token of a dump line: two digits and a space (R96). -/
def hexToken (c : Byte) : List Char := hex2 c ++ [' ']

/-- `DumpLine(s, t)` (R96), of the bytes at addresses `s .. t`. -/
def dumpLine (m : Am) (s t : Nat) : List Char :=
  ['$'] ++ hex4 s ++ [' '] ++ (m.bytes s t).flatMap hexToken ++ ['|', ' '] ++ (m.bytes s t).map asciiChar ++
  [' ', '|', '\n']

/-- `W = min(CAP, 16)` (00_scope.md R9). -/
def Am.width (m : Am) : Nat := min m.cap 16

/-- The loop of MDUMP from line start `s` (R95); `fuel` bounds the number of lines. -/
def dumpLines (m : Am) (e : Nat) : Nat → Nat → List Char
  | 0, _ => []
  | fuel + 1, s =>
    if s ≤ e then dumpLine m s (min (s + m.width - 1) e) ++ dumpLines m e fuel (s + m.width) else []

/-- The text of the dump of `[b, e]`: each line shows at least one byte, so the span's length bounds the lines. -/
def dumpText (m : Am) (b e : Nat) : List Char := dumpLines m e (e + 1 - b) b

end Sys2Proof.Machine
end

