-- ==== Sys2Proof/Machine/AddressedMemory.lean ====
section
/-! DEFINITION. The meanings of the Addressed Memory commands (40_addressed_memory.md). None reads or writes the RF. -/

namespace Sys2Proof.Machine

/-- MRD (R92). -/
def execMrd (a : Half) (s : State) : Result :=
  withAm s fun m => orRaise (address m a) s fun n => done (zextByte (m.read n)) s

/-- MWR (R93). -/
def execMwr (a : Half) (v : Byte) (s : State) : Result :=
  withAm s fun m => orRaise (address m a) s fun n => done 0 (s.setAm (m.write n v))

/-- MFILL (R94). -/
def execMfill (v : Byte) (sp : Span) (s : State) : Result :=
  withAm s fun m => orRaise (span m sp) s fun r =>
    done 0 (s.setAm (m.writeBytes r.1 (List.replicate (r.2 + 1 - r.1) v)))

/-- MDUMP (R95). -/
def execMdump (sp : Span) (s : State) : Result :=
  withAm s fun m => orRaise (span m sp) s fun r => done 0 (s.emit (dumpText m r.1 r.2))

/-- The existence check of MSAVE: "no overwrite" (R99). -/
def freshFile (s : State) (h : Half) : Except Error Unit :=
  if (s.file h).isSome then .error (.fileAlreadyExists h) else .ok ()

/-- MSAVE (R99): the span checks first, then the existence check. -/
def execMsave (h : Half) (sp : Span) (s : State) : Result :=
  withAm s fun m => orRaise (span m sp) s fun r => orRaise (freshFile s h) s fun _ =>
    done 0 (s.setFile h (m.bytes r.1 r.2))

/-- The image checks shared by MLOAD and construction from an image: the file exists and has exactly `CAP` bytes
(R100; 70_reset_and_hazards.md R184). -/
def imageFile (file : Option (List Byte)) (h : Half) (cap : Nat) : Except Error (List Byte) :=
  match file with
  | none => .error (.fileNotFound h)
  | some bytes => if bytes.length = cap then .ok bytes else .error (.sizeMismatch bytes.length)

/-- MLOAD (R100). -/
def execMload (h : Half) (s : State) : Result :=
  withAm s fun m => orRaise (imageFile (s.file h) h m.cap) s fun bytes =>
    done 0 (s.setAm (m.writeBytes m.base.toNat bytes))

/-- MBEGIN (R101). -/
def execMbegin (s : State) : Result :=
  withAm s fun m => done (zextWord m.base) s

/-- MEND (R102). -/
def execMend (s : State) : Result :=
  withAm s fun m => done (BitVec.ofNat 32 m.last) s

/-- MSIZE (R103). -/
def execMsize (s : State) : Result :=
  withAm s fun m => done (BitVec.ofNat 32 m.cap) s

end Sys2Proof.Machine
end

