-- ==== Sys2Proof/Machine/Flags.lean ====
section
/-! DEFINITION. The flags of F and the text of the flag dump (10_state.md R30; 41_register_file.md R135 to R140). -/

namespace Sys2Proof

/-- The mask of a flag: `1 << FSEL` (30_encoding.md R77). -/
def Flag.mask (f : Flag) : Byte := 1#8 <<< f.fsel.toNat

namespace Machine

/-- A flag's value in the F byte (R135). -/
def getFlag (f : Flag) (b : Byte) : Bool := b &&& f.mask != 0

/-- The F byte with a flag set (R136). -/
def setFlag (f : Flag) (b : Byte) : Byte := b ||| f.mask

/-- The F byte with a flag cleared (R137). -/
def clearFlag (f : Flag) (b : Byte) : Byte := b &&& ~~~f.mask

/-- The F byte of a register file: offset 1, never F' at offset 9 (10_state.md R31). -/
def Rf.flags (x : Rf) : Byte := x.byte ByteReg.f.offset

/-- The register file with its F byte replaced. -/
def Rf.setFlags (x : Rf) (b : Byte) : Rf := x.setByte ByteReg.f.offset b

/-- The binary digit of bit `i`. -/
def bitChar (b : Byte) (i : Nat) : Char := if b.getLsbD i then '1' else '0'

/-- `FlagBits(f)`: eight binary digits, MSB first, and a line end (R139). -/
def flagBits (b : Byte) : List Char :=
  [bitChar b 7, bitChar b 6, bitChar b 5, bitChar b 4, bitChar b 3, bitChar b 2, bitChar b 1, bitChar b 0, '\n']

/-- `T` or `F` for one flag (R140). -/
def flagLetter (b : Byte) (f : Flag) : Char := if getFlag f b then 'T' else 'F'

/-- `FLAG_LABEL_ROW(f)` (R140): the letters of S, Z, H, P/V, N, C, with open text before, between and after them.
DESIGN CHOICE, log 4: the letters stand from bit 7 down to bit 0, the order of the labels. -/
def flagLabelRow (b : Byte) : List Char :=
  Config.flagLabelText 0 b ++ [flagLetter b .s] ++
  Config.flagLabelText 1 b ++ [flagLetter b .z] ++
  Config.flagLabelText 2 b ++ [flagLetter b .h] ++
  Config.flagLabelText 3 b ++ [flagLetter b .pv] ++
  Config.flagLabelText 4 b ++ [flagLetter b .n] ++
  Config.flagLabelText 5 b ++ [flagLetter b .c] ++
  Config.flagLabelText 6 b

end Machine
end Sys2Proof
end

