-- ==== Sys2Proof/Machine/RegisterFile.lean ====
section
/-! DEFINITION. The meanings of the Register File commands (41_register_file.md). None reads or writes the AM. -/

namespace Sys2Proof.Machine

/-- RRDB (R131). -/
def execRrdb (o : Half) (s : State) : Result :=
  withRf s fun x => orRaise (byteOffset o) s fun i => done (zextByte (x.byte i)) s

/-- RWRB (R132). -/
def execRwrb (o : Half) (v : Byte) (s : State) : Result :=
  withRf s fun x => orRaise (byteOffset o) s fun i => done 0 (s.setRf (x.setByte i v))

/-- RRDW (R133). -/
def execRrdw (o : Half) (s : State) : Result :=
  withRf s fun x => orRaise (wordOffset o) s fun i => done (zextWord (x.word i)) s

/-- RWRW (R134). -/
def execRwrw (o v : Half) (s : State) : Result :=
  withRf s fun x => orRaise (wordOffset o) s fun i => done 0 (s.setRf (x.setWord i v))

/-- RGETF (R135). -/
def execRgetf (f : Flag) (s : State) : Result :=
  withRf s fun x => done (if getFlag f x.flags then 1 else 0) s

/-- RSETF (R136). -/
def execRsetf (f : Flag) (s : State) : Result :=
  withRf s fun x => done 0 (s.setRf (x.setFlags (setFlag f x.flags)))

/-- RCLRF (R137). -/
def execRclrf (f : Flag) (s : State) : Result :=
  withRf s fun x => done 0 (s.setRf (x.setFlags (clearFlag f x.flags)))

/-- RDUMPF (R138). -/
def execRdumpf (s : State) : Result :=
  withRf s fun x =>
    done (zextByte x.flags) (s.emit (flagBits x.flags ++ flagLabelRow x.flags))

end Sys2Proof.Machine
end

