-- ==== Sys2Proof/Machine/Dispatch.lean ====
section
/-! DEFINITION. One arm per command: the meaning that performs it. -/

namespace Sys2Proof.Machine

def exec (i : Instr) (s : State) : Host.Outcome State Fault Refusal :=
  match i with
  | .rrdb o => Sys2Proof.Machine.execRrdb o s
  | .rwrb o v => Sys2Proof.Machine.execRwrb o v s
  | .rrdw o => Sys2Proof.Machine.execRrdw o s
  | .rwrw o v => Sys2Proof.Machine.execRwrw o v s
  | .rgetf f => Sys2Proof.Machine.execRgetf f s
  | .rsetf f => Sys2Proof.Machine.execRsetf f s
  | .rclrf f => Sys2Proof.Machine.execRclrf f s
  | .rdumpf => Sys2Proof.Machine.execRdumpf s
  | .mrd a => Sys2Proof.Machine.execMrd a s
  | .mwr a v => Sys2Proof.Machine.execMwr a v s
  | .mfill v sp => Sys2Proof.Machine.execMfill v sp s
  | .mdump sp => Sys2Proof.Machine.execMdump sp s
  | .msave h sp => Sys2Proof.Machine.execMsave h sp s
  | .mload h => Sys2Proof.Machine.execMload h s
  | .mbegin => Sys2Proof.Machine.execMbegin s
  | .mend => Sys2Proof.Machine.execMend s
  | .msize => Sys2Proof.Machine.execMsize s

end Sys2Proof.Machine
end

