-- ==== Sys2Proof/Machine/Launch.lean ====
section
/-! DEFINITION. The host's requests: construction, destruction, hand over, and the host's files
(70_reset_and_hazards.md R180 to R187; 20_memory.md R60, R63). -/

namespace Sys2Proof.Machine

/-- The instance at a port as its owner reaches it; another agent has no step (20_memory.md R63). -/
def asOwner (agent port : Nat) (s : State) (k : Block → Result) : Result :=
  match Table.lookup port s.blocks with
  | none => .fault .noBlock
  | some b => if b.owner = agent then k b else .fault .notOwner

/-- A construction makes a new instance at a port of its own; where one is live it has no step (R180; log 7). -/
def atFreePort (port : Nat) (s : State) (k : Result) : Result :=
  match Table.lookup port s.blocks with
  | none => k
  | some _ => .fault .unitExists

/-- The state with instance `b` at a port. -/
def State.putBlock (s : State) (port : Nat) (b : Block) : State :=
  { s with blocks := Table.insert port b s.blocks }

/-- The state after a construction that succeeded: its draws are taken, the host is told. -/
def State.constructed (s : State) : State := { s with draws := s.draws + 1, launch := some .constructed }

/-- What construction in mode `init` leaves in the cells (R182 to R184), or the error it fails with. -/
def construct (init : MemInit) (cap : Nat) (s : State) : Except Error Contents :=
  match init with
  | .fill v => .ok (.filled v)
  | .random lo hi => .ok (.drawn lo hi s.draws)
  | .image h =>
    match imageFile (s.file h) h cap with
    | .ok bytes => .ok (.image bytes)
    | .error e => .error e

/-- Construct an AM instance (R181). A configuration the block refuses and an image that fails leave no instance,
and the host is told (R185). -/
def constructAm (agent port : Nat) (cfg : AmConfig) (s : State) : Result :=
  atFreePort port s <|
    if cfg.wellFormed then
      match construct cfg.init cfg.cap s with
      | .ok c =>
        let m : Am := { base := cfg.base, cap := cfg.cap, mem := { contents := c, cells := [] } }
        .next (s.putBlock port { owner := agent, store := .am m, response := none }).constructed
      | .error e => .next { s with launch := some (.failed e) }
    else .next { s with launch := some .configRefused }

/-- Construct an RF instance (R186). -/
def constructRf (agent port : Nat) (s : State) : Result :=
  atFreePort port s <|
    .next (s.putBlock port { owner := agent, store := .rf (Rf.construct s.draws), response := none }).constructed

/-- Destroy an instance: "storage released then", nothing of it is left (R187). DEDUCED, log 16: its owner asks. -/
def destroy (agent port : Nat) (s : State) : Result :=
  asOwner agent port s fun _ => .next { s with blocks := Table.erase port s.blocks }

/-- Hand an instance over to another agent (20_memory.md R63). DESIGN CHOICE, log 21: the spec says only "before
ownership is handed over"; here its owner asks, between two commands, and another agent's asking has no step. -/
def handOver (agent port newOwner : Nat) (s : State) : Result :=
  asOwner agent port s fun b => .next (s.putBlock port { b with owner := newOwner })

/-- The host changes its own file table between commands (70_reset_and_hazards.md R189, R191). -/
def hostFile (h : Half) (content : Option (List Byte)) (s : State) : Result :=
  match content with
  | some bytes => .next (s.setFile h bytes)
  | none => .next { s with files := Table.erase h.toNat s.files }

end Sys2Proof.Machine
end

