-- ==== Sys2Proof/Machine/Port.lean ====
section
/-! DEFINITION. The command port: performing one command word, and one request. -/

namespace Sys2Proof.Machine

/-- Perform a command word an agent presents at a port: decode first, and nothing else is checked of an illegal
word (30_encoding.md R70, R75; 60_exceptions.md R163). -/
def command (agent port : Nat) (w : CmdWord) (s : State) : Result :=
  asOwner agent port s fun _ =>
    match decode w with
    | .ok i => exec i { s with port := port }
    | .error _ => raise (.illegalCommand w) { s with port := port }

/-- Perform one request. -/
def perform (r : Request) (s : State) : Result :=
  match r with
  | .command agent port w => command agent port w s
  | .constructAm agent port cfg => constructAm agent port cfg s
  | .constructRf agent port => constructRf agent port s
  | .destroy agent port => destroy agent port s
  | .handOver agent port newOwner => handOver agent port newOwner s
  | .hostFile h content => hostFile h content s

/-- The agent that makes a request; the host's own change of a file has none. -/
def Request.agent : Request → Option Nat
  | .command agent _ _ => some agent
  | .constructAm agent _ _ => some agent
  | .constructRf agent _ => some agent
  | .destroy agent _ => some agent
  | .handOver agent _ _ => some agent
  | .hostFile _ _ => none

/-- The port a request is made at. -/
def Request.port : Request → Option Nat
  | .command _ port _ => some port
  | .constructAm _ port _ => some port
  | .constructRf _ port => some port
  | .destroy _ port => some port
  | .handOver _ port _ => some port
  | .hostFile _ _ => none

/-- The next state by the oldest of the waiting requests `l` that has a step and that no stuck request of its own
agent precedes. `passed` are the older ones: a request that has no step waits (20_memory.md R63: "before ownership
is handed over"), its agent's later ones behind it, and holds up no other agent's (60_exceptions.md R171; log 8). -/
def takeFirst (s : State) (passed : List Request) : List Request → Option State
  | [] => none
  | r :: rest =>
    if r.agent ∈ passed.map Request.agent then takeFirst s (passed ++ [r]) rest
    else
      match perform r { s with inbox := passed ++ rest } with
      | .next t => some t
      | .fault _ => takeFirst s (passed ++ [r]) rest
      | .refused _ => takeFirst s (passed ++ [r]) rest

/-- The instance is of the unit that OP[4] of the word selects (30_encoding.md R72). -/
def Block.takes (b : Block) (w : CmdWord) : Bool :=
  match b.store with
  | .am _ => (fieldOp w).getLsbD 4
  | .rf _ => !(fieldOp w).getLsbD 4

/-- The request that presents `w`, as the owner, at the current port if the instance there takes it, and otherwise
at the first port whose instance does (log 12). -/
def presentWord (s : State) (w : CmdWord) : Request :=
  match s.here.filter (Block.takes · w) with
  | some b => .command b.owner s.port w
  | none =>
    match s.blocks.find? fun p => p.2.takes w with
    | some p => .command p.2.owner p.1 w
    | none => .command 0 s.port w

end Sys2Proof.Machine
end

