-- ==== Sys2Proof/Machine/Step.lean ====
section
/-! DEFINITION. One step of the machine: one request is taken and performed to completion (20_memory.md R62). -/

namespace Sys2Proof.Machine

/-- One step: one request (70_reset_and_hazards.md R192), the oldest that has a step and that no stuck one of its own
agent precedes (log 8). With none waiting the machine stays as it is: it fetches and sequences nothing of its own
(30_encoding.md R85). Where each that waits has no step or is behind one of its own agent, the machine stops as the
oldest does. -/
def step (s : State) : Host.Outcome State Fault Refusal :=
  match s.inbox with
  | [] => .next s
  | r :: rest =>
    match takeFirst s [] (r :: rest) with
    | some t => .next t
    | none => perform r { s with inbox := rest }

/-- The state in which the next step takes the command word `w`, at a port whose instance takes it (log 12). -/
def State.withFetchWord (s : State) (nbits w : Nat) : State :=
  { s with inbox := presentWord s (BitVec.ofNat 64 (w % 2 ^ nbits)) :: s.inbox }

end Sys2Proof.Machine
end

