-- ==== Sys2Proof/Machine/Assembler.lean ====
section
/-! DEFINITION. The assembler listing: the word of a line, the pseudo-commands, and reading a line's text
(30_encoding.md R82, R83; log 18). No step uses it. -/

namespace Sys2Proof.Machine

/-- The span operand of a line; an omitted group assembles RNG = 0 (R82). -/
def asmSpan : Option (Nat × Nat) → Span
  | none => .whole
  | some (b, e) => .range (BitVec.ofNat 16 b) (BitVec.ofNat 16 e)

/-- The command of a line whose numbers fit: the table of R82, and the expansions of GET and PUT at `RegLayout`
offsets (R83). -/
def asmInstr : AsmLine → Instr
  | .rrdb o => .rrdb (BitVec.ofNat 16 o)
  | .rwrb o v => .rwrb (BitVec.ofNat 16 o) (BitVec.ofNat 8 v)
  | .rrdw o => .rrdw (BitVec.ofNat 16 o)
  | .rwrw o v => .rwrw (BitVec.ofNat 16 o) (BitVec.ofNat 16 v)
  | .rgetf f => .rgetf f
  | .rsetf f => .rsetf f
  | .rclrf f => .rclrf f
  | .rdumpf => .rdumpf
  | .mrd a => .mrd (BitVec.ofNat 16 a)
  | .mwr a v => .mwr (BitVec.ofNat 16 a) (BitVec.ofNat 8 v)
  | .mfill v sp => .mfill (BitVec.ofNat 8 v) (asmSpan sp)
  | .mdump sp => .mdump (asmSpan sp)
  | .msave h sp => .msave (BitVec.ofNat 16 h) (asmSpan sp)
  | .mload h => .mload (BitVec.ofNat 16 h)
  | .mbegin => .mbegin
  | .mend => .mend
  | .msize => .msize
  | .getByte reg => .rrdb (BitVec.ofNat 16 reg.offset)
  | .putByte reg v => .rwrb (BitVec.ofNat 16 reg.offset) (BitVec.ofNat 8 v)
  | .getWord reg => .rrdw (BitVec.ofNat 16 reg.offset)
  | .putWord reg v => .rwrw (BitVec.ofNat 16 reg.offset) (BitVec.ofNat 16 v)

/-- The command word of a line; none where a number does not fit its field (R82). -/
def assemble (l : AsmLine) : Option CmdWord :=
  if l.wellFormed then some (encode (asmInstr l)) else none

/-! ### Reading a line -/

/-- White space inside a line. -/
def isBlank (c : Char) : Bool := c == ' ' || c == '\t'

/-- Text without white space at either end. -/
def trim (t : List Char) : List Char := ((t.dropWhile isBlank).reverse.dropWhile isBlank).reverse

/-- The value of a digit, in any base up to 16. -/
def digit (c : Char) : Option Nat :=
  if '0' ≤ c ∧ c ≤ '9' then some (c.toNat - 48)
  else if 'A' ≤ c ∧ c ≤ 'F' then some (c.toNat - 55)
  else if 'a' ≤ c ∧ c ≤ 'f' then some (c.toNat - 87)
  else none

/-- Digits in a base, after the value `acc`. -/
def digits (base : Nat) : Nat → List Char → Option Nat
  | acc, [] => some acc
  | acc, c :: t =>
    match digit c with
    | some d => if d < base then digits base (acc * base + d) t else none
    | none => none

/-- A number in C syntax, hexadecimal after `0x`, else decimal (R82). -/
def number : List Char → Option Nat
  | [] => none
  | ['0', 'x'] => none
  | '0' :: 'x' :: t => digits 16 0 t
  | t => digits 10 0 t

/-- The operands of a line, split at the commas. -/
def splitCommas : List Char → List (List Char)
  | [] => [[]]
  | c :: t =>
    if c = ',' then [] :: splitCommas t
    else match splitCommas t with
      | h :: r => (c :: h) :: r
      | [] => [[c]]

/-- The operands after the mnemonic, trimmed; none where nothing is written. -/
def operandsOf (t : List Char) : List (List Char) :=
  if trim t = [] then [] else (splitCommas t).map trim

/-- The entry of a table of names. -/
def named {α : Type} (t : List Char) : List (String × α) → Option α
  | [] => none
  | (n, a) :: r => if n.toList = t then some a else named t r

/-- The names of the commands (R74, R82). -/
def commandNames : List (String × Opcode) :=
  [("RRDB", .rrdb), ("RWRB", .rwrb), ("RRDW", .rrdw), ("RWRW", .rwrw), ("RGETF", .rgetf), ("RSETF", .rsetf),
   ("RCLRF", .rclrf), ("RDUMPF", .rdumpf), ("MRD", .mrd), ("MWR", .mwr), ("MFILL", .mfill), ("MDUMP", .mdump),
   ("MSAVE", .msave), ("MLOAD", .mload), ("MBEGIN", .mbegin), ("MEND", .mend), ("MSIZE", .msize)]

/-- The names of the flags (R82). -/
def flagNames : List (String × Flag) :=
  [("C", .c), ("N", .n), ("PV", .pv), ("H", .h), ("Z", .z), ("S", .s)]

/-- The names of the byte registers (R83). -/
def byteNames : List (String × ByteReg) :=
  [("A", .a), ("F", .f), ("B", .b), ("C", .c), ("D", .d), ("E", .e), ("H", .h), ("L", .l), ("A'", .a'), ("F'", .f'),
   ("B'", .b'), ("C'", .c'), ("D'", .d'), ("E'", .e'), ("H'", .h'), ("L'", .l'), ("I", .i), ("R", .r)]

/-- The names of the word registers (R83). -/
def wordNames : List (String × WordReg) :=
  [("AF", .af), ("BC", .bc), ("DE", .de), ("HL", .hl), ("AF'", .af'), ("BC'", .bc'), ("DE'", .de'), ("HL'", .hl'),
   ("SP", .sp), ("PC", .pc), ("IX", .ix), ("IY", .iy)]

/-- The line a command's operands make (the syntax column of R82). -/
def commandLine : Opcode → List (List Char) → Option AsmLine
  | .rrdb, [o] => do return .rrdb (← number o)
  | .rwrb, [o, v] => do return .rwrb (← number o) (← number v)
  | .rrdw, [o] => do return .rrdw (← number o)
  | .rwrw, [o, v] => do return .rwrw (← number o) (← number v)
  | .rgetf, [f] => do return .rgetf (← named f flagNames)
  | .rsetf, [f] => do return .rsetf (← named f flagNames)
  | .rclrf, [f] => do return .rclrf (← named f flagNames)
  | .rdumpf, [] => some .rdumpf
  | .mrd, [a] => do return .mrd (← number a)
  | .mwr, [a, v] => do return .mwr (← number a) (← number v)
  | .mfill, [v] => do return .mfill (← number v) none
  | .mfill, [v, b, e] => do return .mfill (← number v) (some (← number b, ← number e))
  | .mdump, [] => some (.mdump none)
  | .mdump, [b, e] => do return .mdump (some (← number b, ← number e))
  | .msave, [h] => do return .msave (← number h) none
  | .msave, [h, b, e] => do return .msave (← number h) (some (← number b, ← number e))
  | .mload, [h] => do return .mload (← number h)
  | .mbegin, [] => some .mbegin
  | .mend, [] => some .mend
  | .msize, [] => some .msize
  | _, _ => none

/-- `GET r` and `PUT r, v` (R83). -/
def pseudoLine (m : List Char) (ops : List (List Char)) : Option AsmLine :=
  match ops with
  | [r] =>
    if m = "GET".toList then
      match named r byteNames with
      | some reg => some (.getByte reg)
      | none => (named r wordNames).map .getWord
    else none
  | [r, v] =>
    if m = "PUT".toList then
      match named r byteNames with
      | some reg => (number v).map (.putByte reg)
      | none => do return .putWord (← named r wordNames) (← number v)
    else none
  | _ => none

/-- Read one line: `;` starts a comment, the mnemonic comes first, the operands are separated by commas (R82). -/
def parseLine (text : List Char) : Option AsmLine :=
  let t := trim (text.takeWhile (· != ';'))
  let m := t.takeWhile fun c => !isBlank c
  let ops := operandsOf (t.dropWhile fun c => !isBlank c)
  match named m commandNames with
  | some op => commandLine op ops
  | none => pseudoLine m ops

/-- The command word of one line of text. -/
def assembleText (text : List Char) : Option CmdWord := (parseLine text).bind assemble

end Sys2Proof.Machine
end

