-- ==== Sys2Proof/Safety.lean ====
section
/-! DEFINITION. The invariant of the machine, and the words in which claims say what a command leaves alone. -/

namespace Sys2Proof.Machine

/-- What construction leaves is what its mode says: a nonempty random range (70_reset_and_hazards.md R182), an image
of exactly `CAP` bytes (R184). -/
abbrev Contents.Ok (cap : Nat) : Contents → Prop
  | .filled _ => True
  | .drawn lo hi _ => lo.toNat ≤ hi.toNat
  | .image bytes => bytes.length = cap

/-- An AM unit is well-formed: `CAP > 0`, its window lies in the 16-bit space (00_scope.md R8), its storage is in
canonical form. -/
def Am.Ok (m : Am) : Prop :=
  0 < m.cap ∧ m.base.toNat + m.cap - 1 ≤ 0xFFFF ∧ m.mem.wf m.cap ∧ m.mem.contents.Ok m.cap

/-- A live AM instance is well-formed; an RF instance has nothing to be otherwise. -/
def Block.Ok (b : Block) : Prop := ∀ m, b.am = some m → m.Ok

/-- The invariant: the tables of blocks and files are in canonical form, handles are 16 bits wide, every block is
well-formed. -/
def State.Inv (s : State) : Prop :=
  Table.Rising s.blocks ∧ (∀ p ∈ s.blocks, p.2.Ok) ∧
  Table.Rising s.files ∧ ∀ p ∈ s.files, p.1 < 0x10000

/-- The owner of the block behind the current port. -/
def State.owner (s : State) : Option Nat := s.here.map Block.owner

/-- Every block behind another port, the owner behind this one, and the model's own fields are as before. -/
def State.SameOutside (s t : State) : Prop :=
  (∀ n, n ≠ s.port → Table.lookup n t.blocks = Table.lookup n s.blocks) ∧ t.owner = s.owner ∧
  t.port = s.port ∧ t.inbox = s.inbox ∧ t.draws = s.draws ∧ t.launch = s.launch

/-- The host sees no change: no file and no output text. -/
def State.SameHost (s t : State) : Prop := t.files = s.files ∧ t.out = s.out

/-- Nothing is changed but the response at the current port. -/
def State.OnlyResponse (s t : State) : Prop :=
  t.am = s.am ∧ t.rf = s.rf ∧ s.SameHost t ∧ s.SameOutside t

/-- The AM configuration is as before (10_state.md R21). -/
def Am.SameConfig (m m' : Am) : Prop :=
  m'.base = m.base ∧ m'.cap = m.cap ∧ m'.mem.contents = m.mem.contents

/-- The unit a command is for: "OP[4] selects the unit, 0 = RF, 1 = AM" (30_encoding.md R72). -/
def usesAm (i : Instr) : Bool := i.opcode.bits.getLsbD 4

/-- The instance behind the current port is of the unit a command is for. -/
def State.hasUnit (s : State) (i : Instr) : Prop := if usesAm i then s.am.isSome else s.rf.isSome

/-- A request has no step at a state (log 7). -/
def Request.Stuck (r : Request) (s : State) : Prop := ∃ f, perform r s = .fault f

/-- None of the waiting requests `l` has its turn: each has no step, or stands behind one of its own agent (log 8). -/
def State.HeldUp (s : State) (l : List Request) : Prop :=
  ∀ pre q rest, l = pre ++ q :: rest → q.Stuck s ∨ q.agent ∈ pre.map Request.agent

/-- A line assembles exactly when `fits` holds, and its word has RSV = 0 and the given numbers in its other fields
(30_encoding.md R72, R82). -/
def AssemblesTo (line : AsmLine) (fits : Prop) (op fsel rng a0 a1 d : Nat) : Prop :=
  ((assemble line).isSome ↔ fits) ∧
  ∀ w, assemble line = some w →
    (fieldOp w).toNat = op ∧ (fieldFsel w).toNat = fsel ∧ (fieldRng w).toNat = rng ∧ (fieldRsv w).toNat = 0 ∧
    (fieldA0 w).toNat = a0 ∧ (fieldA1 w).toNat = a1 ∧ (fieldD w).toNat = d

end Sys2Proof.Machine
end

