-- ==== Sys2Proof/Certificates/Slice0/Obligations.lean ====
section
/-! DEFINITION. The statements about the machine that are to be proved. Each docstring names the rules of the spec
that the statement formalises. -/

open Sys2Proof Sys2Proof.Machine

/-- Each of the six 64-bit words of R84 (RWRB, RRDW, RSETF, MWR, MFILL and MDUMP) decodes to the command of its
assembly line, and the encoder gives that word for the command. (R84) -/
def Obligations.WrittenWordsDecode : Prop :=
  (decode 0x0800000200000043 = .ok (.rwrb 2 0x43) ∧ encode (.rwrb 2 0x43) = 0x0800000200000043) ∧
  (decode 0x1000000200000000 = .ok (.rrdw 2) ∧ encode (.rrdw 2) = 0x1000000200000000) ∧
  (decode 0x2E00000000000000 = .ok (.rsetf .z) ∧ encode (.rsetf .z) = 0x2E00000000000000) ∧
  (decode 0x8800101000000041 = .ok (.mwr 0x1010 0x41) ∧ encode (.mwr 0x1010 0x41) = 0x8800101000000041) ∧
  (decode 0x9000000000000000 = .ok (.mfill 0x00 .whole) ∧ encode (.mfill 0x00 .whole) = 0x9000000000000000) ∧
  (decode 0x98801000101F0000 = .ok (.mdump (.range 0x1000 0x101F)) ∧
    encode (.mdump (.range 0x1000 0x101F)) = 0x98801000101F0000)

/-- For every command, with every operand at every value its field admits, decode (encode i) is i. (R72, R73, R74,
R76, R77, R78, R82) -/
def Obligations.DecodeOfEncode : Prop :=
  ∀ i : Instr, decode (encode i) = .ok i

/-- For every 64-bit word w that decodes to a command i, w with the ignored bits cleared is encode i: no bit that
the "fields used" column gives the command is dropped or read as another value. (R72, R74, R76, R77, R78, R79) -/
def Obligations.DecodedWordIsEncodingOnUsedBits : Prop :=
  ∀ (w : CmdWord) (i : Instr), decode w = .ok i → w &&& i.usedBits = encode i

/-- If w decodes to i and w' agrees with w on the bits that i uses (OP, RSV and the fields used), then w' decodes to
i too, and presenting w' at any port by any agent in any state answers what presenting w answers. (R79) -/
def Obligations.UnusedFieldsAreIgnored : Prop :=
  ∀ (w w' : CmdWord) (i : Instr), decode w = .ok i → w' &&& i.usedBits = w &&& i.usedBits →
    decode w' = .ok i ∧ ∀ agent port s, command agent port w' s = command agent port w s

/-- A word is rejected by decode if and only if OP is 0x08 to 0x0F or 0x19 to 0x1F, or RSV is not zero, or it is
RGETF, RSETF or RCLRF with FSEL 3 or 5. Presented by the owner at any port, a rejected word answers a next state
whose response is IllegalCommand with STATUS 6 and RDATA 0, and nothing else is changed. (R80) -/
def Obligations.IllegalWordsAnswerIllegalCommand : Prop :=
  (∀ w : CmdWord, (∃ e, decode w = .error e) ↔
    ((0x08 ≤ (fieldOp w).toNat ∧ (fieldOp w).toNat ≤ 0x0F) ∨ (0x19 ≤ (fieldOp w).toNat ∧ (fieldOp w).toNat ≤ 0x1F)) ∨
    fieldRsv w ≠ 0 ∨
    ((fieldOp w = 0x04 ∨ fieldOp w = 0x05 ∨ fieldOp w = 0x06) ∧ (fieldFsel w = 3 ∨ fieldFsel w = 5))) ∧
  ∀ (w : CmdWord) (e : DecodeError) (s : State) (port : Nat) (b : Block), decode w = .error e →
    Table.lookup port s.blocks = some b →
    ∃ t, command b.owner port w s = .next t ∧ t.response = some (.error (.illegalCommand w)) ∧
      (Response.error (.illegalCommand w)).status = 6 ∧ (Response.error (.illegalCommand w)).rdata = 0 ∧
      State.OnlyResponse { s with port := port } t

/-- If the oldest request is a command word that the owner of the instance at a port presents there, the word
decodes to i, and the instance is of the unit that i is for, then the step is exec of i at the state whose inbox has
lost that request and whose current port is that port. That the oldest request that has a step is taken is the
model's choice, log entry 8. (R62, R70, R75) -/
def Obligations.StepRunsDecodedCommand : Prop :=
  ∀ (s : State) (agent port : Nat) (w : CmdWord) (rest : List Request) (b : Block) (i : Instr),
    s.inbox = .command agent port w :: rest → Table.lookup port s.blocks = some b → b.owner = agent →
    decode w = .ok i → State.hasUnit { s with port := port } i →
    step s = exec i { s with inbox := rest, port := port }

/-- In a state that meets the invariant and has an instance of the unit that OP[4] selects, if the word decodes to i
then the step from s.withFetchWord is exec of i at s itself with the current port at a port whose instance is of
that unit; and that is the port that was current if its instance is of that unit. How a word comes to the port, and
to which, is the model's choice, log entry 12. (R70, R72, R73, R75) -/
def Obligations.FetchWordRunsNext : Prop :=
  ∀ (s : State) (nbits w n : Nat) (i : Instr), s.Inv → State.hasUnit { s with port := n } i →
    decodeTableWord nbits w = some i →
    ∃ p, State.hasUnit { s with port := p } i ∧ (s.hasUnit i → p = s.port) ∧
      step (s.withFetchWord nbits w) = exec i { s with port := p }

/-- A word with OP 0x00 and RSV 0 decodes to RRDB of A0. With an RF behind the port and o < 26, RRDB o answers a
next state whose response is OK with RDATA equal to the byte at o as an unsigned number; from 26 on the response is
OutOfRange(o). Either way nothing but the response changes. (R131) -/
def Obligations.RrdbReadsByte : Prop :=
  (∀ w : CmdWord, fieldOp w = 0x00 → fieldRsv w = 0 → decode w = .ok (.rrdb (fieldA0 w))) ∧
  (∀ (s : State) (x : Rf) (o : Half) (h : o.toNat < 26), s.rf = some x →
    ∃ t r, exec (.rrdb o) s = .next t ∧ t.response = some (.ok r) ∧ r.toNat = (x.byte ⟨o.toNat, h⟩).toNat ∧
      s.OnlyResponse t) ∧
  (∀ (s : State) (x : Rf) (o : Half), s.rf = some x → 26 ≤ o.toNat →
    ∃ t, exec (.rrdb o) s = .next t ∧ t.response = some (.error (.outOfRange o.toNat)) ∧ s.OnlyResponse t)

/-- A word with OP 0x01 and RSV 0 decodes to RWRB of A0 and D[7:0]. With an RF behind the port and o < 26, RWRB o, v
answers a next state with response OK 0 in which byte o is v and every other RF byte (so every flag, unless o = 1),
every AM, the files, the text and everything outside the instance are as before; from 26 on the response is
OutOfRange(o) and nothing else changes. (R132) -/
def Obligations.RwrbWritesOneByte : Prop :=
  (∀ w : CmdWord, fieldOp w = 0x01 → fieldRsv w = 0 → decode w = .ok (.rwrb (fieldA0 w) (fieldByte w))) ∧
  (∀ (s : State) (x : Rf) (o : Half) (v : Byte) (h : o.toNat < 26), s.rf = some x →
    ∃ t x', exec (.rwrb o v) s = .next t ∧ t.response = some (.ok 0) ∧ t.rf = some x' ∧
      x'.byte ⟨o.toNat, h⟩ = v ∧ (∀ p : Fin 26, p.val ≠ o.toNat → x'.byte p = x.byte p) ∧
      t.am = s.am ∧ s.SameHost t ∧ s.SameOutside t) ∧
  (∀ (s : State) (x : Rf) (o : Half) (v : Byte), s.rf = some x → 26 ≤ o.toNat →
    ∃ t, exec (.rwrb o v) s = .next t ∧ t.response = some (.error (.outOfRange o.toNat)) ∧ s.OnlyResponse t)

/-- A word with OP 0x02 and RSV 0 decodes to RRDW of A0. With an RF behind the port and o < 25, the response is OK
with RDATA = x[o] + 256 * x[o+1] on the unsigned bytes (no sign extension of the low byte); from 25 on it is
OutOfRange(o). Either way nothing but the response changes. (R133) -/
def Obligations.RrdwComposesWord : Prop :=
  (∀ w : CmdWord, fieldOp w = 0x02 → fieldRsv w = 0 → decode w = .ok (.rrdw (fieldA0 w))) ∧
  (∀ (s : State) (x : Rf) (o : Half) (h : o.toNat + 1 < 26), s.rf = some x →
    ∃ t r, exec (.rrdw o) s = .next t ∧ t.response = some (.ok r) ∧
      r.toNat = (x.byte ⟨o.toNat, by omega⟩).toNat + 256 * (x.byte ⟨o.toNat + 1, h⟩).toNat ∧ s.OnlyResponse t) ∧
  (∀ (s : State) (x : Rf) (o : Half), s.rf = some x → 25 ≤ o.toNat →
    ∃ t, exec (.rrdw o) s = .next t ∧ t.response = some (.error (.outOfRange o.toNat)) ∧ s.OnlyResponse t)

/-- A word with OP 0x03 and RSV 0 decodes to RWRW of A0 and D. With an RF behind the port and o < 25, the answer is
a next state with response OK 0 in which byte o is v mod 256, byte o+1 is v div 256, and every other RF byte, every
AM, the files, the text and everything outside the instance are as before; from 25 on the response is OutOfRange(o)
and neither byte changes. (R134) -/
def Obligations.RwrwWritesTwoBytes : Prop :=
  (∀ w : CmdWord, fieldOp w = 0x03 → fieldRsv w = 0 → decode w = .ok (.rwrw (fieldA0 w) (fieldD w))) ∧
  (∀ (s : State) (x : Rf) (o v : Half) (h : o.toNat + 1 < 26), s.rf = some x →
    ∃ t x', exec (.rwrw o v) s = .next t ∧ t.response = some (.ok 0) ∧ t.rf = some x' ∧
      (x'.byte ⟨o.toNat, by omega⟩).toNat = v.toNat % 256 ∧ (x'.byte ⟨o.toNat + 1, h⟩).toNat = v.toNat / 256 ∧
      (∀ p : Fin 26, p.val ≠ o.toNat → p.val ≠ o.toNat + 1 → x'.byte p = x.byte p) ∧
      t.am = s.am ∧ s.SameHost t ∧ s.SameOutside t) ∧
  (∀ (s : State) (x : Rf) (o v : Half), s.rf = some x → 25 ≤ o.toNat →
    ∃ t, exec (.rwrw o v) s = .next t ∧ t.response = some (.error (.outOfRange o.toNat)) ∧ s.OnlyResponse t)

/-- A word with OP 0x04, RSV 0 and the FSEL of a flag f decodes to RGETF f, and with FSEL 3 or 5 it is rejected.
With an RF behind the port the response is OK with RDATA 1 if the flag's bit of the byte at offset 1 is set and 0 if
it is clear, and nothing but the response changes. (R135) -/
def Obligations.RgetfReadsFlagBit : Prop :=
  (∀ (w : CmdWord) (f : Flag), fieldOp w = 0x04 → fieldRsv w = 0 → fieldFsel w = f.fsel → decode w = .ok (.rgetf f)) ∧
  (∀ w : CmdWord, fieldOp w = 0x04 → (fieldFsel w = 3 ∨ fieldFsel w = 5) → ∃ e, decode w = .error e) ∧
  (∀ (s : State) (x : Rf) (f : Flag), s.rf = some x →
    ∃ t, exec (.rgetf f) s = .next t ∧
      t.response = some (.ok (if (x.byte 1).getLsbD f.fsel.toNat then 1 else 0)) ∧ s.OnlyResponse t)

/-- A word with OP 0x05, RSV 0 and the FSEL of a flag f decodes to RSETF f, and with FSEL 3 or 5 it is rejected.
With an RF behind the port the answer is a next state with response OK 0 in which the flag's bit of the byte at
offset 1 is set, every other bit of that byte (bits 3 and 5 too), every other RF byte, every AM, the files, the text
and everything outside the instance are as before. (R136) -/
def Obligations.RsetfSetsOneFlag : Prop :=
  (∀ (w : CmdWord) (f : Flag), fieldOp w = 0x05 → fieldRsv w = 0 → fieldFsel w = f.fsel → decode w = .ok (.rsetf f)) ∧
  (∀ w : CmdWord, fieldOp w = 0x05 → (fieldFsel w = 3 ∨ fieldFsel w = 5) → ∃ e, decode w = .error e) ∧
  (∀ (s : State) (x : Rf) (f : Flag), s.rf = some x →
    ∃ t x', exec (.rsetf f) s = .next t ∧ t.response = some (.ok 0) ∧ t.rf = some x' ∧
      (∀ n, n < 8 → (x'.byte 1).getLsbD n = ((x.byte 1).getLsbD n || decide (n = f.fsel.toNat))) ∧
      (∀ p : Fin 26, p ≠ 1 → x'.byte p = x.byte p) ∧
      t.am = s.am ∧ s.SameHost t ∧ s.SameOutside t)

/-- A word with OP 0x06, RSV 0 and the FSEL of a flag f decodes to RCLRF f, and with FSEL 3 or 5 it is rejected.
With an RF behind the port the answer is a next state with response OK 0 in which the flag's bit of the byte at
offset 1 is clear, every other bit of that byte (bits 3 and 5 too), every other RF byte, every AM, the files, the
text and everything outside the instance are as before. (R137) -/
def Obligations.RclrfClearsOneFlag : Prop :=
  (∀ (w : CmdWord) (f : Flag), fieldOp w = 0x06 → fieldRsv w = 0 → fieldFsel w = f.fsel → decode w = .ok (.rclrf f)) ∧
  (∀ w : CmdWord, fieldOp w = 0x06 → (fieldFsel w = 3 ∨ fieldFsel w = 5) → ∃ e, decode w = .error e) ∧
  (∀ (s : State) (x : Rf) (f : Flag), s.rf = some x →
    ∃ t x', exec (.rclrf f) s = .next t ∧ t.response = some (.ok 0) ∧ t.rf = some x' ∧
      (∀ n, n < 8 → (x'.byte 1).getLsbD n = ((x.byte 1).getLsbD n && !decide (n = f.fsel.toNat))) ∧
      (∀ p : Fin 26, p ≠ 1 → x'.byte p = x.byte p) ∧
      t.am = s.am ∧ s.SameHost t ∧ s.SameOutside t)

/-- A word with OP 0x07 and RSV 0 decodes to RDUMPF. With an RF behind the port the answer is a next state whose
response is OK with RDATA = F, whose text is the text before with the digits of bits 7 to 0 of F, a line end and the
label row appended, and in which the storage, the files and everything outside the instance are as before. The text
of the label row is free (log entry 4). (R138, R139) -/
def Obligations.RdumpfEmitsAndAnswersF : Prop :=
  (∀ w : CmdWord, fieldOp w = 0x07 → fieldRsv w = 0 → decode w = .ok (.rdumpf)) ∧
  (∀ (s : State) (x : Rf), s.rf = some x →
    ∃ t r, exec .rdumpf s = .next t ∧ t.response = some (.ok r) ∧ r.toNat = (x.byte 1).toNat ∧
      t.out = s.out ++ (([7, 6, 5, 4, 3, 2, 1, 0].map fun n => if (x.byte 1).getLsbD n then '1' else '0') ++ ['\n'] ++
        flagLabelRow (x.byte 1)) ∧
      t.am = s.am ∧ t.rf = s.rf ∧ t.files = s.files ∧ s.SameOutside t)

/-- For every F byte, the label row is the open text before the first letter, the letter of bit 7 (S), open text,
the letter of bit 6 (Z), open text, that of bit 4 (H), open text, that of bit 2 (P/V), open text, that of bit 1 (N),
open text, that of bit 0 (C), and open text; a letter is T where its bit of F is 1 and F where it is 0. That the
letters stand in this order is the model's choice, log entry 4, and so is the form of the open text, a free value of
its place and of F. (R140) -/
def Obligations.FlagLabelRowShowsLetters : Prop :=
  ∀ b : Byte,
    let letter := fun n : Nat => if b.getLsbD n then 'T' else 'F'
    flagLabelRow b =
      Config.flagLabelText 0 b ++ [letter 7] ++ Config.flagLabelText 1 b ++ [letter 6] ++
      Config.flagLabelText 2 b ++ [letter 4] ++ Config.flagLabelText 3 b ++ [letter 2] ++
      Config.flagLabelText 4 b ++ [letter 1] ++ Config.flagLabelText 5 b ++ [letter 0] ++ Config.flagLabelText 6 b

/-- A word with OP 0x10 and RSV 0 decodes to MRD of A0. With an AM behind the port and BASE <= a <= BASE + CAP - 1,
the response is OK with RDATA equal to mem[a - BASE] as an unsigned number; below BASE or above BASE + CAP - 1 it is
OutOfRange(a), STATUS 1. Either way nothing but the response changes. (R92, R90) -/
def Obligations.MrdReadsCell : Prop :=
  (∀ w : CmdWord, fieldOp w = 0x10 → fieldRsv w = 0 → decode w = .ok (.mrd (fieldA0 w))) ∧
  (∀ (s : State) (m : Am) (a : Half), s.am = some m → m.base.toNat ≤ a.toNat → a.toNat ≤ m.base.toNat + m.cap - 1 →
    ∃ t r, exec (.mrd a) s = .next t ∧ t.response = some (.ok r) ∧
      r.toNat = (m.mem.read (a.toNat - m.base.toNat)).toNat ∧ s.OnlyResponse t) ∧
  (∀ (s : State) (m : Am) (a : Half), s.am = some m → (a.toNat < m.base.toNat ∨ m.base.toNat + m.cap - 1 < a.toNat) →
    ∃ t, exec (.mrd a) s = .next t ∧ t.response = some (.error (.outOfRange a.toNat)) ∧ s.OnlyResponse t) ∧
  (∀ a, (Error.outOfRange a).status = 1)

/-- A word with OP 0x11 and RSV 0 decodes to MWR of A0 and D[7:0]. With an AM behind the port and the address in the
window, the answer is a next state with response OK 0 in which the cell at the address is v, every other cell of the
window, the configuration, every RF, the files, the text and everything outside the instance are as before; outside
the window the response is OutOfRange(a) and no cell changes. (R93) -/
def Obligations.MwrWritesOneCell : Prop :=
  (∀ w : CmdWord, fieldOp w = 0x11 → fieldRsv w = 0 → decode w = .ok (.mwr (fieldA0 w) (fieldByte w))) ∧
  (∀ (s : State) (m : Am) (a : Half) (v : Byte), s.am = some m → m.base.toNat ≤ a.toNat →
    a.toNat ≤ m.base.toNat + m.cap - 1 →
    ∃ t m', exec (.mwr a v) s = .next t ∧ t.response = some (.ok 0) ∧ t.am = some m' ∧
      (∀ c : Nat, m.base.toNat ≤ c → m'.read c = if c = a.toNat then v else m.read c) ∧ m.SameConfig m' ∧
      t.rf = s.rf ∧ s.SameHost t ∧ s.SameOutside t) ∧
  (∀ (s : State) (m : Am) (a : Half) (v : Byte), s.am = some m → (a.toNat < m.base.toNat ∨ m.base.toNat + m.cap - 1 < a.toNat) →
    ∃ t, exec (.mwr a v) s = .next t ∧ t.response = some (.error (.outOfRange a.toNat)) ∧ s.OnlyResponse t)

/-- A word with OP 0x12 and RSV 0 decodes to MFILL of D[7:0] and the span of RNG, A0, A1. With an AM behind the port
and a span [b, e] in order, no longer than CAP and inside the window, the answer is a next state with response OK 0
in which every cell from b to e is v, every other cell of the window, the configuration, every RF, the files, the
text and everything outside the instance are as before. A span that fails its check answers that error and changes
nothing else. (R94, R91, R78) -/
def Obligations.MfillFillsExactlyTheSpan : Prop :=
  (∀ w : CmdWord, fieldOp w = 0x12 → fieldRsv w = 0 →
    (fieldRng w = 1 → decode w = .ok (.mfill (fieldByte w) (.range (fieldA0 w) (fieldA1 w)))) ∧
    (fieldRng w = 0 → decode w = .ok (.mfill (fieldByte w) .whole))) ∧
  (∀ (s : State) (m : Am) (v : Byte) (sp : Span) (b e : Nat), s.am = some m → resolveSpan m sp = (b, e) → b ≤ e → e - b + 1 ≤ m.cap → m.base.toNat ≤ b →
    e ≤ m.base.toNat + m.cap - 1 →
    ∃ t m', exec (.mfill v sp) s = .next t ∧ t.response = some (.ok 0) ∧ t.am = some m' ∧
      (∀ c : Nat, m.base.toNat ≤ c → m'.read c = if b ≤ c ∧ c ≤ e then v else m.read c) ∧ m.SameConfig m' ∧
      t.rf = s.rf ∧ s.SameHost t ∧ s.SameOutside t) ∧
  (∀ (s : State) (m : Am) (v : Byte) (sp : Span) (er : Error), s.am = some m → span m sp = .error er →
    ∃ t, exec (.mfill v sp) s = .next t ∧ t.response = some (.error er) ∧ s.OnlyResponse t)

/-- A word with OP 0x14 and RSV 0 decodes to MSAVE of D and the span of RNG, A0, A1. With an AM behind the port, a
span [b, e] that passes its checks and FS(h) absent, the answer is a next state with response OK 0 in which FS(h) is
the list of e - b + 1 bytes whose byte k is the cell at address b + k; every other file, the storage, the text and
everything outside the instance are as before. An existing file answers FileAlreadyExists; a span error comes first
whether or not the file exists; on an error nothing but the response changes. (R99, R60, R61, R163) -/
def Obligations.MsaveWritesNewFile : Prop :=
  (∀ w : CmdWord, fieldOp w = 0x14 → fieldRsv w = 0 →
    (fieldRng w = 1 → decode w = .ok (.msave (fieldD w) (.range (fieldA0 w) (fieldA1 w)))) ∧
    (fieldRng w = 0 → decode w = .ok (.msave (fieldD w) .whole))) ∧
  (∀ (s : State) (m : Am) (h : Half) (sp : Span) (b e : Nat), s.am = some m → resolveSpan m sp = (b, e) → b ≤ e → e - b + 1 ≤ m.cap → m.base.toNat ≤ b →
    e ≤ m.base.toNat + m.cap - 1 →
    s.file h = none →
    ∃ t bytes, exec (.msave h sp) s = .next t ∧ t.response = some (.ok 0) ∧ t.file h = some bytes ∧
      bytes.length = e - b + 1 ∧ (∀ k, k < e - b + 1 → bytes[k]? = some (m.read (b + k))) ∧
      (∀ g : Half, g ≠ h → t.file g = s.file g) ∧ t.am = s.am ∧ t.rf = s.rf ∧ t.out = s.out ∧ s.SameOutside t) ∧
  (∀ (s : State) (m : Am) (h : Half) (sp : Span) (b e : Nat) (old : List Byte), s.am = some m → resolveSpan m sp = (b, e) → b ≤ e → e - b + 1 ≤ m.cap → m.base.toNat ≤ b →
    e ≤ m.base.toNat + m.cap - 1 →
    s.file h = some old →
    ∃ t, exec (.msave h sp) s = .next t ∧ t.response = some (.error (.fileAlreadyExists h)) ∧ s.OnlyResponse t) ∧
  (∀ (s : State) (m : Am) (h : Half) (sp : Span) (er : Error), s.am = some m → span m sp = .error er →
    ∃ t, exec (.msave h sp) s = .next t ∧ t.response = some (.error er) ∧ s.OnlyResponse t)

/-- A word with OP 0x15 and RSV 0 decodes to MLOAD of D. With an AM behind the port and a file of exactly CAP bytes,
the answer is a next state with response OK 0 in which mem[i] is file byte i for every i below CAP, and the
configuration, every RF, the files, the text and everything outside the instance are as before. An absent file
answers FileNotFound(h), any other length n answers SizeMismatch(n), and then nothing but the response changes.
(R100) -/
def Obligations.MloadLoadsWholeBlock : Prop :=
  (∀ w : CmdWord, fieldOp w = 0x15 → fieldRsv w = 0 → decode w = .ok (.mload (fieldD w))) ∧
  (∀ (s : State) (m : Am) (h : Half) (bytes : List Byte), s.am = some m → s.file h = some bytes →
    bytes.length = m.cap →
    ∃ t m', exec (.mload h) s = .next t ∧ t.response = some (.ok 0) ∧ t.am = some m' ∧
      (∀ i, i < m.cap → bytes[i]? = some (m'.mem.read i)) ∧ m.SameConfig m' ∧
      t.rf = s.rf ∧ s.SameHost t ∧ s.SameOutside t) ∧
  (∀ (s : State) (m : Am) (h : Half), s.am = some m → s.file h = none →
    ∃ t, exec (.mload h) s = .next t ∧ t.response = some (.error (.fileNotFound h)) ∧ s.OnlyResponse t) ∧
  (∀ (s : State) (m : Am) (h : Half) (bytes : List Byte), s.am = some m → s.file h = some bytes →
    bytes.length ≠ m.cap →
    ∃ t, exec (.mload h) s = .next t ∧ t.response = some (.error (.sizeMismatch bytes.length)) ∧ s.OnlyResponse t)

/-- Words with OP 0x16, 0x17 and 0x18 and RSV 0 decode to MBEGIN, MEND and MSIZE. With a well-formed AM behind the
port (CAP > 0, window within 16 bits) each answers a next state whose response is OK with RDATA, as an unsigned
number, BASE, BASE + CAP - 1 and CAP (up to 0x10000), and nothing but the response changes. (R101, R102, R103) -/
def Obligations.AccessorsAnswerConfiguration : Prop :=
  (∀ w : CmdWord, fieldOp w = 0x16 → fieldRsv w = 0 → decode w = .ok (.mbegin)) ∧ (∀ w : CmdWord, fieldOp w = 0x17 → fieldRsv w = 0 → decode w = .ok (.mend)) ∧
  (∀ w : CmdWord, fieldOp w = 0x18 → fieldRsv w = 0 → decode w = .ok (.msize)) ∧
  (∀ (s : State) (m : Am), s.am = some m → 0 < m.cap → m.base.toNat + m.cap - 1 ≤ 0xFFFF →
    (∃ t r, exec .mbegin s = .next t ∧ t.response = some (.ok r) ∧ r.toNat = m.base.toNat ∧ s.OnlyResponse t) ∧
    (∃ t r, exec .mend s = .next t ∧ t.response = some (.ok r) ∧ r.toNat = m.base.toNat + m.cap - 1 ∧
      s.OnlyResponse t) ∧
    (∃ t r, exec .msize s = .next t ∧ t.response = some (.ok r) ∧ r.toNat = m.cap ∧ s.OnlyResponse t))

/-- The span of RNG = 1 is [A0, A1] and of RNG = 0 [BASE, BASE + CAP - 1]. For each of MFILL, MDUMP and MSAVE: b > e
answers OverflowError(b, e); otherwise e - b + 1 > CAP answers OverflowError(b, e); otherwise b < BASE or e > END
answers OutOfRange(b, e); each with nothing changed but the response. In a well-formed AM the default span passes
every check. (R91) -/
def Obligations.SpanChecksInOrder : Prop :=
  (∀ (m : Am) (b e : Half), resolveSpan m (.range b e) = (b.toNat, e.toNat)) ∧
  (∀ m : Am, resolveSpan m .whole = (m.base.toNat, m.base.toNat + m.cap - 1)) ∧
  (∀ m : Am, m.Ok → span m .whole = .ok (m.base.toNat, m.base.toNat + m.cap - 1)) ∧
  (∀ (s : State) (m : Am) (sp : Span) (b e : Nat) (v : Byte) (h : Half) (i : Instr), s.am = some m →
    resolveSpan m sp = (b, e) → (i = .mfill v sp ∨ i = .mdump sp ∨ i = .msave h sp) →
    (e < b → ∃ t, exec i s = .next t ∧ t.response = some (.error (.overflowError b e)) ∧ s.OnlyResponse t) ∧
    (b ≤ e → m.cap < e - b + 1 →
      ∃ t, exec i s = .next t ∧ t.response = some (.error (.overflowError b e)) ∧ s.OnlyResponse t) ∧
    (b ≤ e → e - b + 1 ≤ m.cap → (b < m.base.toNat ∨ m.base.toNat + m.cap - 1 < e) →
      ∃ t, exec i s = .next t ∧ t.response = some (.error (.spanOutOfRange b e)) ∧ s.OnlyResponse t))

/-- A word with OP 0x13 and RSV 0 decodes to MDUMP of the span of RNG, A0, A1. With an AM behind the port and a span
[b, e] that passes its checks, the answer is a next state with response OK 0 whose text is the text before with the
dump text of [b, e] appended, the storage, the files and everything outside the instance as before; a span that
fails its check answers that error and emits nothing. For CAP > 0 and W = min(CAP, 16), the dump text of [b, e] with
b <= e is the one line of [b, e] if it has at most W bytes, and otherwise the line of [b, b + W - 1] followed by the
dump text of [b + W, e]. (R95) -/
def Obligations.MdumpEmitsLines : Prop :=
  (∀ w : CmdWord, fieldOp w = 0x13 → fieldRsv w = 0 →
    (fieldRng w = 1 → decode w = .ok (.mdump (.range (fieldA0 w) (fieldA1 w)))) ∧
    (fieldRng w = 0 → decode w = .ok (.mdump .whole))) ∧
  (∀ (s : State) (m : Am) (sp : Span) (b e : Nat), s.am = some m → resolveSpan m sp = (b, e) → b ≤ e → e - b + 1 ≤ m.cap → m.base.toNat ≤ b →
    e ≤ m.base.toNat + m.cap - 1 →
    ∃ t, exec (.mdump sp) s = .next t ∧ t.response = some (.ok 0) ∧ t.out = s.out ++ dumpText m b e ∧
      t.am = s.am ∧ t.rf = s.rf ∧ t.files = s.files ∧ s.SameOutside t) ∧
  (∀ (s : State) (m : Am) (sp : Span) (er : Error), s.am = some m → span m sp = .error er →
    ∃ t, exec (.mdump sp) s = .next t ∧ t.response = some (.error er) ∧ s.OnlyResponse t) ∧
  (∀ (m : Am) (b e : Nat), 0 < m.cap → b ≤ e →
    dumpText m b e =
      if e + 1 - b ≤ min m.cap 16 then dumpLine m b e
      else dumpLine m b (b + min m.cap 16 - 1) ++ dumpText m (b + min m.cap 16) e)

/-- For a window start at or below s, the line of the bytes at addresses s to t is "$", the four uppercase
hexadecimal digits of s, a space, for each byte its two uppercase hexadecimal digits and a space, "| ", the
character of each byte, " |" and a line end; one token and one character per byte, no padding. The digits are those
of the text "0123456789ABCDEF". (R96, R98) -/
def Obligations.DumpLineFormat : Prop :=
  (∀ (m : Am) (s t : Nat), m.base.toNat ≤ s → s ≤ t →
    dumpLine m s t =
      "$".toList ++ hex4 s ++ " ".toList ++
      ((List.range (t + 1 - s)).flatMap fun k => hex2 (m.read (s + k)) ++ " ".toList) ++ "| ".toList ++
      ((List.range (t + 1 - s)).map fun k => asciiChar (m.read (s + k))) ++ " |\n".toList) ∧
  (∀ c : Byte, (hex2 c).map some = ["0123456789ABCDEF".toList[c.toNat / 16]?, "0123456789ABCDEF".toList[c.toNat % 16]?]) ∧
  (∀ n : Nat, n < 0x10000 → (hex4 n).map some =
    ["0123456789ABCDEF".toList[n / 4096]?, "0123456789ABCDEF".toList[n / 256 % 16]?,
     "0123456789ABCDEF".toList[n / 16 % 16]?, "0123456789ABCDEF".toList[n % 16]?])

/-- The character of a byte c is a dot when its signed value is below 32 or equal to 127, otherwise the ASCII
character with its unsigned code; so exactly the patterns 0x20 to 0x7E render as themselves. (R97) -/
def Obligations.AsciiRendering : Prop :=
  ∀ c : Byte,
    (c.toInt < 32 ∨ c.toInt = 127 → asciiChar c = '.') ∧
    (¬(c.toInt < 32 ∨ c.toInt = 127) → asciiChar c = Char.ofNat c.toNat) ∧
    ((0x20 ≤ c.toNat ∧ c.toNat ≤ 0x7E) ↔ ¬(c.toInt < 32 ∨ c.toInt = 127))

/-- For every command and state: if exec answers a next state whose response is an error, then that state differs
from the one before in the response alone: no cell, RF byte, file or text. And no command depends on the response
that stands at the port: after any response, every command answers exactly what it would have answered without it.
(R161) -/
def Obligations.ErrorWritesNothing : Prop :=
  (∀ (i : Instr) (s t : State) (e : Error), exec i s = .next t → t.response = some (.error e) → s.OnlyResponse t) ∧
  (∀ (i : Instr) (s : State) (r : Response), exec i (s.reply r) = exec i s)

/-- For every command and state: with the unit that OP[4] selects behind the current port, exec answers a next state
in which a response stands at the port (OK or an error) and everything outside the instance is as before; without
that unit it answers the fault noUnit (the model's stop, log entry 7). (R15, R57, R162, R166) -/
def Obligations.EveryCommandAnswers : Prop :=
  ∀ (i : Instr) (s : State),
    (s.hasUnit i → ∃ t r, exec i s = .next t ∧ t.response = some r ∧ s.SameOutside t) ∧
    (¬s.hasUnit i → exec i s = .fault .noUnit)

/-- OK has STATUS 0 and its RDATA; OutOfRange 1 (address, offset or span), OverflowError 2, FileNotFound 3,
SizeMismatch 4, FileAlreadyExists 5, IllegalCommand 6; every error has RDATA 0; no response has a STATUS of 7 or
more. (R160, R71) -/
def Obligations.StatusCodes : Prop :=
  (∀ r, (Response.ok r).status = 0 ∧ (Response.ok r).rdata = r) ∧
  (∀ a, (Error.outOfRange a).status = 1) ∧ (∀ b e, (Error.spanOutOfRange b e).status = 1) ∧
  (∀ b e, (Error.overflowError b e).status = 2) ∧ (∀ h, (Error.fileNotFound h).status = 3) ∧
  (∀ n, (Error.sizeMismatch n).status = 4) ∧ (∀ h, (Error.fileAlreadyExists h).status = 5) ∧
  (∀ w, (Error.illegalCommand w).status = 6) ∧
  (∀ e, (Response.error e).status = e.status ∧ (Response.error e).rdata = 0) ∧
  (∀ r : Response, r.status.toNat < 7)

/-- For every command and state, if exec answers an error response: STATUS 1 only from MRD, MWR, MFILL, MDUMP,
MSAVE, RRDB, RWRB, RRDW, RWRW; STATUS 2 only from MFILL, MDUMP, MSAVE; STATUS 3 and 4 only from MLOAD; STATUS 5 only
from MSAVE; and IllegalCommand never (decode alone raises it). (R160, R163) -/
def Obligations.CommandsRaiseOnlyTheirErrors : Prop :=
  ∀ (i : Instr) (s t : State) (e : Error), exec i s = .next t → t.response = some (.error e) →
    (e.status = 1 → i.opcode ∈ [.mrd, .mwr, .mfill, .mdump, .msave, .rrdb, .rwrb, .rrdw, .rwrw]) ∧
    (e.status = 2 → i.opcode ∈ [.mfill, .mdump, .msave]) ∧
    (e.status = 3 ∨ e.status = 4 → i.opcode = .mload) ∧
    (e.status = 5 → i.opcode = .msave) ∧ e.status ≠ 6

/-- For every command and state: if exec answers a next state in which RF byte p differs, then the command is RWRB
at p, RWRW at p or p - 1, or p is 1 and the command is RSETF or RCLRF. So nothing increments R, advances PC, moves
SP, or touches the shadow set but byte and word writes. (R28, R29, R31) -/
def Obligations.OnlyRfWritersChangeBytes : Prop :=
  ∀ (i : Instr) (s t : State) (x x' : Rf) (p : Fin 26), exec i s = .next t → s.rf = some x → t.rf = some x' →
    x'.byte p ≠ x.byte p →
    (∃ o v, i = .rwrb o v ∧ p.val = o.toNat) ∨
    (∃ o v, i = .rwrw o v ∧ (p.val = o.toNat ∨ p.val = o.toNat + 1)) ∨
    (p = 1 ∧ ∃ f, i = .rsetf f ∨ i = .rclrf f)

/-- For every command and state: if exec answers a next state in which bit n of the byte at offset 1 differs, then
the command is RWRB 1, RWRW 0, RWRW 1, or RSETF or RCLRF of the flag whose bit is n. So bits 3 and 5, which no flag
names, change only by byte and word writes. (R30, R31, R136, R137) -/
def Obligations.OnlyFlagWritersChangeFlags : Prop :=
  (∀ (i : Instr) (s t : State) (x x' : Rf) (n : Nat), exec i s = .next t → s.rf = some x → t.rf = some x' →
    (x'.byte 1).getLsbD n ≠ (x.byte 1).getLsbD n →
    (∃ v, i = .rwrb 1 v) ∨ (∃ v, i = .rwrw 0 v ∨ i = .rwrw 1 v) ∨
    (∃ f : Flag, n = f.fsel.toNat ∧ (i = .rsetf f ∨ i = .rclrf f))) ∧
  (∀ f : Flag, f.fsel.toNat ≠ 3 ∧ f.fsel.toNat ≠ 5)

/-- For every command and state: if exec answers a next state, the AM behind the port keeps its BASE, CAP and
construction contents, and if any cell differs the command is MWR, MFILL or MLOAD. And if two states have AM units
that differ in their storage alone, every command but MRD, MDUMP and MSAVE answers the same response, text and files
in both. (R23) -/
def Obligations.OnlyAmWritersChangeCells : Prop :=
  (∀ (i : Instr) (s t : State) (m : Am), exec i s = .next t → s.am = some m →
    ∃ m', t.am = some m' ∧ m.SameConfig m' ∧
      ∀ k, m'.mem.read k ≠ m.mem.read k → i.opcode ∈ [.mwr, .mfill, .mload]) ∧
  (∀ (i : Instr) (s : State) (m : Am) (mem : Memory), s.am = some m → i.opcode ∉ [.mrd, .mdump, .msave] →
    ∀ t, exec i s = .next t →
      ∃ t', exec i (s.setAm { m with mem := mem }) = .next t' ∧ t'.response = t.response ∧ t'.out = t.out ∧
        t'.files = t.files ∧ t'.rf = t.rf)

/-- For every command and state in which exec answers a next state: the text before is a prefix of the text after;
if the text differs the command is MDUMP or RDUMPF; if a file differs the command is MSAVE of that very handle and
the file was absent. (R58, R56) -/
def Obligations.OnlyDumpsEmitAndOnlyMsaveWritesFiles : Prop :=
  ∀ (i : Instr) (s t : State), exec i s = .next t →
    (∃ text, t.out = s.out ++ text) ∧
    (t.out ≠ s.out → i.opcode = .mdump ∨ i.opcode = .rdumpf) ∧
    (∀ h : Half, t.file h ≠ s.file h → s.file h = none ∧ ∃ sp, i = .msave h sp)

/-- For every state in which exec answers a next state: MRD, RRDB, RRDW, RGETF, MBEGIN, MEND and MSIZE leave
everything but the response as it is, and the same command again answers the very same state; MDUMP and RDUMPF leave
the storage, the files and everything outside the instance, and the text after is the text before with text
appended; MSAVE leaves the storage, the text and everything outside the instance. (R58) -/
def Obligations.ReadsHaveNoSideEffects : Prop :=
  ∀ (i : Instr) (s t : State), exec i s = .next t →
    (i.opcode ∈ [.mrd, .rrdb, .rrdw, .rgetf, .mbegin, .mend, .msize] → s.OnlyResponse t ∧ exec i t = .next t) ∧
    (i.opcode ∈ [.mdump, .rdumpf] → t.am = s.am ∧ t.rf = s.rf ∧ t.files = s.files ∧ s.SameOutside t ∧
      ∃ text, t.out = s.out ++ text) ∧
    (i.opcode = .msave → t.am = s.am ∧ t.rf = s.rf ∧ t.out = s.out ∧ s.SameOutside t)

/-- For every command and state in which exec answers a next state: a command with OP[4] = 0 leaves the AM at every
port, one with OP[4] = 1 leaves the RF at every port. In any other state with the same RF behind the current port, a
command with OP[4] = 0 leaves the same RF, gives the same response and appends the same text; in any other state
with the same AM behind the current port and the same files, a command with OP[4] = 1 leaves the same AM and files,
gives the same response and appends the same text. (R20, R50, R66, R72) -/
def Obligations.UnitsShareNothing : Prop :=
  ∀ (i : Instr) (s t : State), exec i s = .next t →
    (usesAm i = false →
      (∀ n, (Table.lookup n t.blocks).bind Block.am = (Table.lookup n s.blocks).bind Block.am) ∧
      ∀ s' : State, s'.rf = s.rf →
        ∃ t' text, exec i s' = .next t' ∧ t'.rf = t.rf ∧ t'.response = t.response ∧
          t.out = s.out ++ text ∧ t'.out = s'.out ++ text) ∧
    (usesAm i = true →
      (∀ n, (Table.lookup n t.blocks).bind Block.rf = (Table.lookup n s.blocks).bind Block.rf) ∧
      ∀ s' : State, s'.am = s.am → s'.files = s.files →
        ∃ t' text, exec i s' = .next t' ∧ t'.am = t.am ∧ t'.files = t.files ∧ t'.response = t.response ∧
          t.out = s.out ++ text ∧ t'.out = s'.out ++ text)

/-- For every state whose step answers a next state: either nothing waits and nothing changes, or the step performed
one waiting request, before which none of the same agent's waited; the others go on waiting in their order; and the
instance behind every port but the one that the request names (its storage, owner and response) is exactly as
before. That requests wait in one list, and which of them a step takes, is the model's choice, log entry 8. (R62,
R66, R171) -/
def Obligations.OtherBlocksAreUntouched : Prop :=
  ∀ s t : State, step s = .next t →
    (s.inbox = [] ∧ t = s) ∨
    ∃ pre r rest, s.inbox = pre ++ r :: rest ∧ r.agent ∉ pre.map Request.agent ∧
      perform r { s with inbox := pre ++ rest } = .next t ∧ t.inbox = pre ++ rest ∧
      ∀ n, r.port ≠ some n → Table.lookup n t.blocks = Table.lookup n s.blocks

/-- For any two states with the same instance behind a port and the same files, whatever else they hold: presenting
a command word at that port stops with the same fault in both, or answers next states in both, in which the instance
behind the port (storage, owner and response) and the files are the same and the same text has been appended. (R66,
R62, R171) -/
def Obligations.CommandSeesOnlyItsOwnBlock : Prop :=
  ∀ (agent port : Nat) (w : CmdWord) (s s' : State), Table.lookup port s'.blocks = Table.lookup port s.blocks →
    s'.files = s.files →
    (∃ f, command agent port w s = .fault f ∧ command agent port w s' = .fault f) ∨
    (∃ t t' text, command agent port w s = .next t ∧ command agent port w s' = .next t' ∧
      Table.lookup port t'.blocks = Table.lookup port t.blocks ∧ t'.files = t.files ∧
      t.out = s.out ++ text ∧ t'.out = s'.out ++ text)

/-- A command word at a live instance of an agent that is not its owner has no step: performing it is the fault
notOwner; a step that answers a next state while it waits leaves it waiting; and where nothing else waits, the step
is that fault. A hand over by the owner answers a next state in which the instance is as before but for its new
owner; there a command word of the new owner that decodes to i runs as exec of i, and one of the old owner (if
another agent) has no step. That having no step is the fault notOwner is log entry 7, that the request waits log
entry 8, that a hand over leaves the last response log entry 9, and that the owner asks for it log entry 21: the
model's choices. (R63) -/
def Obligations.SecondAgentIsStuck : Prop :=
  (∀ (s : State) (agent port : Nat) (w : CmdWord) (b : Block), Table.lookup port s.blocks = some b →
    b.owner ≠ agent →
    command agent port w s = .fault .notOwner ∧
    (∀ t, step s = .next t → .command agent port w ∈ s.inbox → .command agent port w ∈ t.inbox) ∧
    (s.inbox = [.command agent port w] → step s = .fault .notOwner)) ∧
  (∀ (s : State) (port new : Nat) (b : Block), Table.lookup port s.blocks = some b →
    ∃ t, perform (.handOver b.owner port new) s = .next t ∧
      Table.lookup port t.blocks = some { b with owner := new } ∧
      (∀ w i, decode w = .ok i → command new port w t = exec i { t with port := port }) ∧
      (∀ w, b.owner ≠ new → command b.owner port w t = .fault .notOwner))

/-- For every state that meets the invariant: instance and file tables have strictly rising keys, file handles are
16 bits, every AM has CAP > 0 and its window within 16 bits, its storage lists strictly rising indexes below CAP
with no entry equal to what the cell reads as unlisted, and its construction contents fit its mode. If the step
answers a next state, that state meets the invariant too. (R8, R20, R21, R22, R60, R171, R182, R184) -/
def Obligations.StepKeepsInvariant : Prop :=
  ∀ s t : State, s.Inv → step s = .next t → t.Inv

/-- State.reset meets the invariant that every step keeps. Its launch parameters are the model's choice, log entry
1. (R8, R35, R180) -/
def Obligations.ResetMeetsInvariant : Prop :=
  State.reset.Inv

/-- From a state with no instance, no file, no text and no draw taken, in which agent 0 asks for an AM (BASE 0x1000,
CAP 256, Fill(0x00)) at port 0 and an RF at port 1, two steps give State.reset. These launch parameters are the
model's choice, log entry 1, and so are the ports and the agent, log entry 6. (R180, R181, R186) -/
def Obligations.ResetIsConstruction : Prop :=
  Sys2Proof.core.run 2
    ({ blocks := [], port := 0, files := [], out := [],
       inbox := [.constructAm 0 0 { base := 0x1000, cap := 256, init := .fill 0x00 }, .constructRf 0 1],
       draws := 0, launch := none } : State) = .next State.reset

/-- After RWRW o, v: RRDW o answers v, RRDB o answers v mod 256 and RRDB o+1 answers v div 256; the word view at o+1
has v div 256 as its low byte and the view at o-1 has v mod 256 as its high byte, their other bytes as before. After
RWRB o, v and then RWRB o+1, u: RRDW o answers v + 256 * u. (R53) -/
def Obligations.WordAndByteViewsAgree : Prop :=
  (∀ (s t : State) (x : Rf) (o v : Half), s.rf = some x → o.toNat + 1 < 26 → exec (.rwrw o v) s = .next t →
    ∃ y, t.rf = some y ∧
      (∃ u r, exec (.rrdw o) t = .next u ∧ u.response = some (.ok r) ∧ r.toNat = v.toNat) ∧
      (∃ u r, exec (.rrdb o) t = .next u ∧ u.response = some (.ok r) ∧ r.toNat = v.toNat % 256) ∧
      (∃ u r, exec (.rrdb (o + 1)) t = .next u ∧ u.response = some (.ok r) ∧ r.toNat = v.toNat / 256) ∧
      (∀ h : o.toNat + 2 < 26, ∃ u r, exec (.rrdw (o + 1)) t = .next u ∧ u.response = some (.ok r) ∧
        r.toNat = v.toNat / 256 + 256 * (x.byte ⟨o.toNat + 2, h⟩).toNat) ∧
      (∀ (h : o.toNat - 1 < 26), 0 < o.toNat → ∃ u r, exec (.rrdw (o - 1)) t = .next u ∧ u.response = some (.ok r) ∧
        r.toNat = (x.byte ⟨o.toNat - 1, h⟩).toNat + 256 * (v.toNat % 256))) ∧
  (∀ (s t t' : State) (x : Rf) (o : Half) (v u : Byte), s.rf = some x → o.toNat + 1 < 26 →
    exec (.rwrb o v) s = .next t → exec (.rwrb (o + 1) u) t = .next t' →
    ∃ w r, exec (.rrdw o) t' = .next w ∧ w.response = some (.ok r) ∧ r.toNat = v.toNat + 256 * u.toNat)

/-- For flags f and g: after RSETF f, RGETF f answers 1; after RCLRF f, RGETF f answers 0; after either, RGETF g for
another flag g answers what it answered before. (R135, R136, R137) -/
def Obligations.FlagAccessorsAgree : Prop :=
  ∀ (s t : State) (x : Rf) (f : Flag), s.rf = some x →
    (exec (.rsetf f) s = .next t → ∃ u, exec (.rgetf f) t = .next u ∧ u.response = some (.ok 1)) ∧
    (exec (.rclrf f) s = .next t → ∃ u, exec (.rgetf f) t = .next u ∧ u.response = some (.ok 0)) ∧
    (∀ g, g ≠ f → (exec (.rsetf f) s = .next t ∨ exec (.rclrf f) s = .next t) →
      ∃ u v r, exec (.rgetf g) s = .next u ∧ exec (.rgetf g) t = .next v ∧ u.response = some r ∧ v.response = some r)

/-- After MWR a, v in the window, MRD c of any address of the window answers v if c = a and otherwise what it
answered before. After MFILL v of any span [b, e] that passes its checks, MRD c of any address of the window answers
v if b <= c <= e and otherwise what it answered before. After MFILL v with no range in a well-formed AM, MRD of
every address of the window answers v. (R62, R92, R93, R94) -/
def Obligations.MemoryReadAfterWrite : Prop :=
  (∀ (s t : State) (m : Am) (a c : Half) (v : Byte), s.am = some m → m.base.toNat ≤ a.toNat → a.toNat ≤ m.last →
    m.base.toNat ≤ c.toNat → c.toNat ≤ m.last → exec (.mwr a v) s = .next t →
    ∃ u u' r r', exec (.mrd c) s = .next u ∧ u.response = some (.ok r) ∧ exec (.mrd c) t = .next u' ∧
      u'.response = some (.ok r') ∧ r'.toNat = if c = a then v.toNat else r.toNat) ∧
  (∀ (s t : State) (m : Am) (c : Half) (v : Byte) (sp : Span) (b e : Nat), s.am = some m → span m sp = .ok (b, e) →
    m.base.toNat ≤ c.toNat → c.toNat ≤ m.last → exec (.mfill v sp) s = .next t →
    ∃ u u' r r', exec (.mrd c) s = .next u ∧ u.response = some (.ok r) ∧ exec (.mrd c) t = .next u' ∧
      u'.response = some (.ok r') ∧ r'.toNat = if b ≤ c.toNat ∧ c.toNat ≤ e then v.toNat else r.toNat) ∧
  (∀ (s t : State) (m : Am) (c : Half) (v : Byte), s.am = some m → m.Ok → m.base.toNat ≤ c.toNat →
    c.toNat ≤ m.last → exec (.mfill v .whole) s = .next t →
    ∃ u r, exec (.mrd c) t = .next u ∧ u.response = some (.ok r) ∧ r.toNat = v.toNat)

/-- If MSAVE h with no range answers OK in a state with a well-formed AM of capacity CAP, then in any state whose
file h is the one saved, with an AM of the same capacity and any base, MLOAD h answers OK and leaves the same byte
in every cell below CAP; and construction from that image leaves the same bytes too. (R61, R99, R100, R184) -/
def Obligations.SaveThenLoadRoundTrip : Prop :=
  ∀ (s t : State) (m : Am) (h : Half), s.am = some m → m.Ok → exec (.msave h .whole) s = .next t →
    t.response = some (.ok 0) →
    (∀ (u : State) (n : Am), u.am = some n → n.cap = m.cap → u.file h = t.file h →
      ∃ v n', exec (.mload h) u = .next v ∧ v.response = some (.ok 0) ∧ v.am = some n' ∧
        ∀ i, i < m.cap → n'.mem.read i = m.mem.read i) ∧
    (∃ c, construct (.image h) m.cap t = .ok c ∧ ∀ i, i < m.cap → c.byte i = m.mem.read i)

/-- At a port with no instance, with CAP > 0 and the window within 16 bits, construction answers a next state with
an AM instance there that has the configured BASE and CAP, every other instance, the files and the text as before.
With Fill(v) every cell is v; with Random(lo, hi), lo <= hi, every cell is a value from lo to hi (which one is free,
log entry 3); with Image(h) and a file of exactly CAP bytes cell i is file byte i. That the constructing agent owns
the instance is log entry 6, that no response stands at its port yet is log entry 9, and that the report constructed
is kept is log entry 15: the model's choices. (R171, R181, R182, R183, R184, R35) -/
def Obligations.ConstructionSetsEveryCell : Prop :=
  (∀ (s : State) (agent port cap : Nat) (base : Half) (v : Byte), Table.lookup port s.blocks = none → 0 < cap → base.toNat + cap - 1 ≤ 0xFFFF →
    ∃ t m, perform (.constructAm agent port { base := base, cap := cap, init := .fill v }) s = .next t ∧
      Table.lookup port t.blocks = some { owner := agent, store := .am m, response := none } ∧
      (∀ n, n ≠ port → Table.lookup n t.blocks = Table.lookup n s.blocks) ∧ t.files = s.files ∧ t.out = s.out ∧
      t.launch = some .constructed ∧ m.base = base ∧ m.cap = cap ∧ (∀ i, i < cap → m.mem.read i = v)) ∧
  (∀ (s : State) (agent port cap : Nat) (base : Half) (lo hi : Byte), Table.lookup port s.blocks = none → 0 < cap → base.toNat + cap - 1 ≤ 0xFFFF → lo.toNat ≤ hi.toNat →
    ∃ t m, perform (.constructAm agent port { base := base, cap := cap, init := .random lo hi }) s = .next t ∧
      Table.lookup port t.blocks = some { owner := agent, store := .am m, response := none } ∧
      (∀ n, n ≠ port → Table.lookup n t.blocks = Table.lookup n s.blocks) ∧ t.files = s.files ∧ t.out = s.out ∧
      t.launch = some .constructed ∧ m.base = base ∧ m.cap = cap ∧ (∀ i, i < cap → lo.toNat ≤ (m.mem.read i).toNat ∧ (m.mem.read i).toNat ≤ hi.toNat)) ∧
  (∀ (s : State) (agent port cap : Nat) (base : Half) (h : Half) (bytes : List Byte), Table.lookup port s.blocks = none → 0 < cap → base.toNat + cap - 1 ≤ 0xFFFF → s.file h = some bytes → bytes.length = cap →
    ∃ t m, perform (.constructAm agent port { base := base, cap := cap, init := .image h }) s = .next t ∧
      Table.lookup port t.blocks = some { owner := agent, store := .am m, response := none } ∧
      (∀ n, n ≠ port → Table.lookup n t.blocks = Table.lookup n s.blocks) ∧ t.files = s.files ∧ t.out = s.out ∧
      t.launch = some .constructed ∧ m.base = base ∧ m.cap = cap ∧ (∀ i, i < cap → bytes[i]? = some (m.mem.read i)))

/-- At a port with no instance: a configuration with CAP = 0, a window past 0xFFFF or lo > hi is refused; a legal
one from an absent image fails with FileNotFound, and from an image of another length with SizeMismatch. In each
case the next state has the same instances, files and text, holds the report for the host, and every command word of
any agent at that port has no step: it is the fault noBlock. That the host's report is kept, and that the
configuration is checked before the image (so that a refused one is reported so whatever the image), is log entry
15; that no step is a fault is log entry 7: the model's choices. (R185, R184, R182, R8) -/
def Obligations.FailedConstructionMakesNoInstance : Prop :=
  ∀ (s : State) (agent port : Nat) (cfg : AmConfig), Table.lookup port s.blocks = none →
    (∀ report : LaunchReport,
      ((report = .configRefused ∧ (cfg.cap = 0 ∨ 0xFFFF < cfg.base.toNat + cfg.cap - 1 ∨
          ∃ lo hi, cfg.init = .random lo hi ∧ hi.toNat < lo.toNat)) ∨
        (0 < cfg.cap ∧ cfg.base.toNat + cfg.cap - 1 ≤ 0xFFFF ∧ ∃ h, cfg.init = .image h ∧
          ((s.file h = none ∧ report = .failed (.fileNotFound h)) ∨
            (∃ bytes, s.file h = some bytes ∧ bytes.length ≠ cfg.cap ∧
              report = .failed (.sizeMismatch bytes.length))))) →
      ∃ t, perform (.constructAm agent port cfg) s = .next t ∧ t.blocks = s.blocks ∧ t.files = s.files ∧
        t.out = s.out ∧ t.launch = some report ∧
        ∀ agent' w, command agent' port w t = .fault .noBlock)

/-- At a port with no instance, construction of an RF answers a next state with an RF instance there, every other
instance, the files and the text as before. With that port the current one, RRDB of every offset o below 26 answers
the draw of that construction for o, and answers it again: the state after the read is one that the same read leaves
as it is; and after any command but RWRB, RWRW, RSETF and RCLRF it answers that same draw. Which value the draw is,
is free (log entry 2). That the constructing agent owns the instance is log entry 6, that no response stands at its
port yet is log entry 9, and that the report constructed is kept is log entry 15: the model's choices. (R34, R131,
R171, R180, R186) -/
def Obligations.RfConstructionMakesFreeBytes : Prop :=
  ∀ (s : State) (agent port : Nat), Table.lookup port s.blocks = none →
    ∃ t x, perform (.constructRf agent port) s = .next t ∧
      Table.lookup port t.blocks = some { owner := agent, store := .rf x, response := none } ∧
      (∀ n, n ≠ port → Table.lookup n t.blocks = Table.lookup n s.blocks) ∧ t.files = s.files ∧ t.out = s.out ∧
      t.launch = some .constructed ∧
      ∀ o : Half, o.toNat < 26 →
        (∃ u r, exec (.rrdb o) { t with port := port } = .next u ∧ u.response = some (.ok r) ∧
          r.toNat = (Config.rfDraw s.draws o.toNat).toNat ∧ exec (.rrdb o) u = .next u) ∧
        ∀ (i : Instr) (v : State), exec i { t with port := port } = .next v →
          i.opcode ∉ [.rwrb, .rwrw, .rsetf, .rclrf] →
          ∃ u r, exec (.rrdb o) v = .next u ∧ u.response = some (.ok r) ∧
            r.toNat = (Config.rfDraw s.draws o.toNat).toNat

/-- If the owner destroys the instance at a port, the next state has nothing at that port and every other instance,
the files and the text as before; then every command word of any agent at that port has no step: it is the fault
noBlock. That destruction is the owner's request is log entry 16, and that no step is a fault is log entry 7: the
model's choices. (R66, R171, R187) -/
def Obligations.DestroyedInstanceIsUnreachable : Prop :=
  ∀ (s : State) (port : Nat) (b : Block), Table.lookup port s.blocks = some b →
    ∃ t, perform (.destroy b.owner port) s = .next t ∧ Table.lookup port t.blocks = none ∧
      (∀ n, n ≠ port → Table.lookup n t.blocks = Table.lookup n s.blocks) ∧ t.files = s.files ∧ t.out = s.out ∧
      ∀ agent w, command agent port w t = .fault .noBlock

/-- The host request for a handle h and a content answers a next state in which FS(h) is that content (absent if
none is given), every other handle, every instance, the text, the current port, the waiting requests, the count of
draws and the report on the last construction are as before. (R60, R189, R191) -/
def Obligations.HostChangesOneFile : Prop :=
  ∀ (s : State) (h : Half) (content : Option (List Byte)),
    ∃ t, perform (.hostFile h content) s = .next t ∧ t.file h = content ∧
      (∀ g : Half, g ≠ h → t.file g = s.file g) ∧ t.blocks = s.blocks ∧ t.out = s.out ∧
      t.port = s.port ∧ t.inbox = s.inbox ∧ t.draws = s.draws ∧ t.launch = s.launch

/-- Where an instance stands at a port, constructing an AM there in any configuration, or an RF, has no step
whichever agent asks, the owner too: it is the fault unitExists. That having no step is this fault is the model's
choice, log entry 7. (R171, R180) -/
def Obligations.LiveUnitIsNotConstructedAgain : Prop :=
  ∀ (s : State) (agent port : Nat) (b : Block), Table.lookup port s.blocks = some b →
    (∀ cfg, perform (.constructAm agent port cfg) s = .fault .unitExists) ∧
    perform (.constructRf agent port) s = .fault .unitExists

/-- RegLayout is the table of R25: the byte registers A, F, B, C, D, E, H, L, A', F', B', C', D', E', H', L', I, R
stand at offsets 0 to 17 in this order, and the low and high bytes of SP, PC, IX, IY at 18 to 25. AF, BC, DE, HL,
AF', BC', DE', HL', SP, PC, IX, IY stand at word offsets 0, 2, 4, 6, 8, 10, 12, 14, 18, 20, 22, 24; each is its low
byte + 256 * its high byte, the bytes that the table names at its offset and the next; so BC is B + 256 * C. (R25,
R26) -/
def Obligations.NamedWordsAreRegisterPairs : Prop :=
  ([ByteReg.a, .f, .b, .c, .d, .e, .h, .l, .a', .f', .b', .c', .d', .e', .h', .l', .i, .r].map fun reg =>
    reg.offset.val) = [0, 1, 2, 3, 4, 5, 6, 7, 8, 9, 10, 11, 12, 13, 14, 15, 16, 17] ∧
  ([WordReg.sp, .pc, .ix, .iy].map fun reg => ((Config.regLayout.low reg).val, (Config.regLayout.high reg).val)) =
    [(18, 19), (20, 21), (22, 23), (24, 25)] ∧
  ([WordReg.af, .bc, .de, .hl, .af', .bc', .de', .hl', .sp, .pc, .ix, .iy].map fun reg => reg.offset.val) =
    [0, 2, 4, 6, 8, 10, 12, 14, 18, 20, 22, 24] ∧
  (∀ (x : Rf) (reg : WordReg),
    (x.word reg.offset).toNat =
      (x.byte (Config.regLayout.low reg)).toNat + 256 * (x.byte (Config.regLayout.high reg)).toNat) ∧
  (∀ x : Rf, (x.word WordReg.bc.offset).toNat =
    (x.byte ByteReg.b.offset).toNat + 256 * (x.byte ByteReg.c.offset).toNat)

/-- For every byte register r of the layout, GET r assembles to the word of RRDB off(r) and PUT r, v to that of RWRB
off(r), v; for every word register rr, GET rr assembles to the word of RRDW off(rr) and PUT rr, v to that of RWRW
off(rr), v. (R83) -/
def Obligations.PseudoCommandsExpand : Prop :=
  (∀ reg : ByteReg, assemble (.getByte reg) = assemble (.rrdb reg.offset)) ∧
  (∀ (reg : ByteReg) (v : Nat), assemble (.putByte reg v) = assemble (.rwrb reg.offset v)) ∧
  (∀ reg : WordReg, assemble (.getWord reg) = assemble (.rrdw reg.offset)) ∧
  (∀ (reg : WordReg) (v : Nat), assemble (.putWord reg v) = assemble (.rwrw reg.offset v))

/-- For each form of line: it assembles if and only if its numbers are in range (offsets, addresses, span ends,
handles and RWRW's v below 0x10000; v of RWRB, MWR and MFILL below 0x100), and then OP is that of its row of R82,
A0, A1 and D are the numbers written for them, FSEL is the flag's bit number (C 0, N 1, PV 2, H 4, Z 6, S 7), RNG is
1 just when a span is written, RSV is 0 and every field not listed is 0. GET and PUT of a register give the fields
of RRDB, RWRB, RRDW and RWRW at the register's offset. Every line that assembles gives a word that decodes to its
command. That MFILL's v is a byte, and that RWRB and MWR refuse a v above R82's 0xFF though lines of
95_test_vectors.md have one, is the model's choice, log entry 20. (R82, R83, R72, R73, R74, R77) -/
def Obligations.AssemblerRefusesWhatDoesNotFit : Prop :=
  (∀ o, AssemblesTo (.rrdb o) (o < 0x10000) 0x00 0 0 o 0 0) ∧
  (∀ o v, AssemblesTo (.rwrb o v) (o < 0x10000 ∧ v < 0x100) 0x01 0 0 o 0 v) ∧
  (∀ o, AssemblesTo (.rrdw o) (o < 0x10000) 0x02 0 0 o 0 0) ∧
  (∀ o v, AssemblesTo (.rwrw o v) (o < 0x10000 ∧ v < 0x10000) 0x03 0 0 o 0 v) ∧
  ([Flag.c, .n, .pv, .h, .z, .s].map fun f => f.fsel.toNat) = [0, 1, 2, 4, 6, 7] ∧
  (∀ f : Flag, AssemblesTo (.rgetf f) True 0x04 f.fsel.toNat 0 0 0 0) ∧
  (∀ f : Flag, AssemblesTo (.rsetf f) True 0x05 f.fsel.toNat 0 0 0 0) ∧
  (∀ f : Flag, AssemblesTo (.rclrf f) True 0x06 f.fsel.toNat 0 0 0 0) ∧
  AssemblesTo .rdumpf True 0x07 0 0 0 0 0 ∧
  (∀ a, AssemblesTo (.mrd a) (a < 0x10000) 0x10 0 0 a 0 0) ∧
  (∀ a v, AssemblesTo (.mwr a v) (a < 0x10000 ∧ v < 0x100) 0x11 0 0 a 0 v) ∧
  (∀ v, AssemblesTo (.mfill v none) (v < 0x100) 0x12 0 0 0 0 v) ∧
  (∀ v b e, AssemblesTo (.mfill v (some (b, e))) (v < 0x100 ∧ b < 0x10000 ∧ e < 0x10000) 0x12 0 1 b e v) ∧
  AssemblesTo (.mdump none) True 0x13 0 0 0 0 0 ∧
  (∀ b e, AssemblesTo (.mdump (some (b, e))) (b < 0x10000 ∧ e < 0x10000) 0x13 0 1 b e 0) ∧
  (∀ h, AssemblesTo (.msave h none) (h < 0x10000) 0x14 0 0 0 0 h) ∧
  (∀ h b e, AssemblesTo (.msave h (some (b, e))) (h < 0x10000 ∧ b < 0x10000 ∧ e < 0x10000) 0x14 0 1 b e h) ∧
  (∀ h, AssemblesTo (.mload h) (h < 0x10000) 0x15 0 0 0 0 h) ∧
  AssemblesTo .mbegin True 0x16 0 0 0 0 0 ∧ AssemblesTo .mend True 0x17 0 0 0 0 0 ∧
  AssemblesTo .msize True 0x18 0 0 0 0 0 ∧
  (∀ reg : ByteReg, AssemblesTo (.getByte reg) True 0x00 0 0 reg.offset 0 0) ∧
  (∀ (reg : ByteReg) (v : Nat), AssemblesTo (.putByte reg v) (v < 0x100) 0x01 0 0 reg.offset 0 v) ∧
  (∀ reg : WordReg, AssemblesTo (.getWord reg) True 0x02 0 0 reg.offset 0 0) ∧
  (∀ (reg : WordReg) (v : Nat), AssemblesTo (.putWord reg v) (v < 0x10000) 0x03 0 0 reg.offset 0 v) ∧
  (∀ (l : AsmLine) (w : CmdWord), assemble l = some w → decode w = .ok (asmInstr l))

/-- A request is held up where it has no step or stands behind one of its own agent. If every request older than r
is held up in s, none of them is of r's agent, and r has a step, then the step of the machine is the one that
performs r, and the older ones go on waiting. And the step is a fault if and only if requests wait and each of them
is held up: the fault is then that of the oldest. That an agent's request without a step holds up its own later ones
is log entry 8, and that a request without a step is a fault is log entry 7: the model's choices. (R63, R171) -/
def Obligations.StuckRequestsHoldUpNoOtherAgent : Prop :=
  (∀ (s t : State) (pre rest : List Request) (r : Request), s.inbox = pre ++ r :: rest →
    s.HeldUp pre → r.agent ∉ pre.map Request.agent →
    perform r { s with inbox := pre ++ rest } = .next t → step s = .next t ∧ t.inbox = pre ++ rest) ∧
  (∀ (s : State) (f : Fault), step s = .fault f ↔
    ∃ r rest, s.inbox = r :: rest ∧ s.HeldUp s.inbox ∧ perform r s = .fault f)
end

