-- ==== Sys2Proof/Laws/Decode.lean ====
section
/-! SUPPORT. The fields of an assembled word, and the opcode and flag maps read back (30_encoding.md R72 to R77). -/

namespace Sys2Proof

variable (op : Opcode) (fsel : BitVec 3) (rng : BitVec 1) (a0 a1 d : Half)

@[simp] theorem fieldOp_assembleWord : fieldOp (assembleWord op fsel rng a0 a1 d) = op.bits := by
  apply BitVec.eq_of_getLsbD_eq
  intro i h
  simp only [fieldOp, assembleWord, BitVec.getLsbD_extractLsb', BitVec.getLsbD_append]
  rw [decide_eq_true h]
  repeat rw [if_neg (by omega)]
  simp only [Bool.true_and]
  congr 1
  omega

@[simp] theorem fieldFsel_assembleWord : fieldFsel (assembleWord op fsel rng a0 a1 d) = fsel := by
  apply BitVec.eq_of_getLsbD_eq
  intro i h
  simp only [fieldFsel, assembleWord, BitVec.getLsbD_extractLsb', BitVec.getLsbD_append]
  rw [decide_eq_true h]
  repeat rw [if_neg (by omega)]
  rw [if_pos (by omega)]
  simp only [Bool.true_and]
  congr 1
  omega

@[simp] theorem fieldRng_assembleWord : fieldRng (assembleWord op fsel rng a0 a1 d) = rng := by
  apply BitVec.eq_of_getLsbD_eq
  intro i h
  simp only [fieldRng, assembleWord, BitVec.getLsbD_extractLsb', BitVec.getLsbD_append]
  rw [decide_eq_true h]
  repeat rw [if_neg (by omega)]
  rw [if_pos (by omega)]
  simp only [Bool.true_and]
  congr 1
  omega

@[simp] theorem fieldRsv_assembleWord : fieldRsv (assembleWord op fsel rng a0 a1 d) = 0 := by
  apply BitVec.eq_of_getLsbD_eq
  intro i h
  simp only [fieldRsv, assembleWord, BitVec.getLsbD_extractLsb', BitVec.getLsbD_append]
  rw [decide_eq_true h]
  repeat rw [if_neg (by omega)]
  rw [if_pos (by omega)]
  simp

@[simp] theorem fieldA0_assembleWord : fieldA0 (assembleWord op fsel rng a0 a1 d) = a0 := by
  apply BitVec.eq_of_getLsbD_eq
  intro i h
  simp only [fieldA0, assembleWord, BitVec.getLsbD_extractLsb', BitVec.getLsbD_append]
  rw [decide_eq_true h]
  repeat rw [if_neg (by omega)]
  rw [if_pos (by omega)]
  simp only [Bool.true_and]
  congr 1
  omega

@[simp] theorem fieldA1_assembleWord : fieldA1 (assembleWord op fsel rng a0 a1 d) = a1 := by
  apply BitVec.eq_of_getLsbD_eq
  intro i h
  simp only [fieldA1, assembleWord, BitVec.getLsbD_extractLsb', BitVec.getLsbD_append]
  rw [decide_eq_true h]
  repeat rw [if_neg (by omega)]
  rw [if_pos (by omega)]
  simp only [Bool.true_and]
  congr 1
  omega

@[simp] theorem fieldD_assembleWord : fieldD (assembleWord op fsel rng a0 a1 d) = d := by
  apply BitVec.eq_of_getLsbD_eq
  intro i h
  simp only [fieldD, assembleWord, BitVec.getLsbD_extractLsb', BitVec.getLsbD_append]
  rw [decide_eq_true h]
  rw [if_pos (by omega)]
  simp

/-- The byte datum of an assembled word is the low byte of D. -/
@[simp] theorem fieldByte_assembleWord :
    fieldByte (assembleWord op fsel rng a0 a1 d) = d.extractLsb' 0 8 := by
  apply BitVec.eq_of_getLsbD_eq
  intro i h
  simp only [fieldByte, assembleWord, BitVec.getLsbD_extractLsb', BitVec.getLsbD_append]
  rw [decide_eq_true h, if_pos (by omega)]

/-- The byte of a zero-extended byte. -/
@[simp] theorem byte_of_zeroExtend (v : Byte) : (v.zeroExtend 16).extractLsb' 0 8 = v := by
  apply BitVec.eq_of_getLsbD_eq
  intro i h
  simp only [BitVec.getLsbD_extractLsb', BitVec.zeroExtend, BitVec.getLsbD_setWidth]
  rw [decide_eq_true h, decide_eq_true (by omega : 0 + i < 16)]
  simp

/-- The OP values are read back as the commands that R74 gives them. -/
@[simp] theorem Opcode.ofBits_bits (op : Opcode) : Opcode.ofBits op.bits = some op := by
  cases op <;> rfl

/-- An OP value selects a command only where R74 assigns it. -/
theorem Opcode.bits_of_ofBits {b : BitVec 5} {op : Opcode} (h : Opcode.ofBits b = some op) : op.bits = b := by
  revert b
  cases op <;> decide

/-- The FSEL values are read back as their flags. -/
@[simp] theorem Flag.ofFsel_fsel (f : Flag) : Flag.ofFsel f.fsel = some f := by
  cases f <;> rfl

/-- FSEL names a flag only by its own bit number (R77). -/
theorem Flag.fsel_of_ofFsel {b : BitVec 3} {f : Flag} (h : Flag.ofFsel b = some f) : f.fsel = b := by
  revert b
  cases f <;> decide

/-- A span is read back from its own fields. -/
@[simp] theorem spanOf_assembleWord (sp : Span) :
    spanOf (assembleWord op fsel sp.rng sp.a0 sp.a1 d) = sp := by
  cases sp <;> simp [spanOf, Span.rng, Span.a0, Span.a1]

end Sys2Proof
end

