-- ==== Sys2Proof/Laws/Table.lean ====
section
/-! SUPPORT. Laws of the tables by key and of the AM storage: a read after a write, everything else unchanged, the
canonical form kept. -/

namespace Sys2Proof.Machine

namespace Table

variable {α : Type}

@[simp] theorem lookup_nil (k : Nat) : lookup k ([] : List (Nat × α)) = none := rfl

theorem lookup_insert (k j : Nat) (v : α) (l : List (Nat × α)) :
    lookup j (insert k v l) = if j = k then some v else lookup j l := by
  induction l with
  | nil => simp [insert, lookup]
  | cons p t ih =>
    obtain ⟨i, w⟩ := p
    simp only [insert]
    split
    · simp only [lookup]
    · split
      · subst_vars
        simp only [lookup]
        split <;> rfl
      · simp only [lookup, ih]
        split <;> split <;> first | rfl | omega

@[simp] theorem lookup_insert_same (k : Nat) (v : α) (l : List (Nat × α)) : lookup k (insert k v l) = some v := by
  simp [lookup_insert]

theorem lookup_insert_other {k j : Nat} (h : j ≠ k) (v : α) (l : List (Nat × α)) :
    lookup j (insert k v l) = lookup j l := by
  simp [lookup_insert, h]

theorem lookup_erase (k j : Nat) (l : List (Nat × α)) :
    lookup j (erase k l) = if j = k then none else lookup j l := by
  induction l with
  | nil => simp [erase, lookup]
  | cons p t ih =>
    obtain ⟨i, w⟩ := p
    simp only [erase]
    split
    · subst_vars
      rw [ih]
      simp only [lookup]
      split <;> rfl
    · simp only [lookup, ih]
      split <;> split <;> first | rfl | omega

@[simp] theorem lookup_erase_same (k : Nat) (l : List (Nat × α)) : lookup k (erase k l) = none := by
  simp [lookup_erase]

theorem lookup_modify (k j : Nat) (f : α → α) (l : List (Nat × α)) :
    lookup j (modify k f l) = if j = k then (lookup j l).map f else lookup j l := by
  induction l with
  | nil => simp [modify, lookup]
  | cons p t ih =>
    obtain ⟨i, w⟩ := p
    simp only [modify]
    split
    · subst_vars
      simp only [lookup]
      split <;> simp
    · simp only [lookup, ih]
      split <;> split <;> first | rfl | omega

@[simp] theorem lookup_modify_same (k : Nat) (f : α → α) (l : List (Nat × α)) :
    lookup k (modify k f l) = (lookup k l).map f := by
  simp [lookup_modify]

theorem lookup_modify_other {k j : Nat} (h : j ≠ k) (f : α → α) (l : List (Nat × α)) :
    lookup j (modify k f l) = lookup j l := by
  simp [lookup_modify, h]

/-- What an insertion can list: the new entry and entries listed before. -/
theorem mem_insert {k : Nat} {v : α} {l : List (Nat × α)} {p : Nat × α} (h : p ∈ insert k v l) :
    p = (k, v) ∨ p ∈ l := by
  induction l with
  | nil => simpa [insert] using h
  | cons q t ih =>
    obtain ⟨i, w⟩ := q
    simp only [insert] at h
    split at h
    · simpa using h
    · split at h
      · simp only [List.mem_cons] at h ⊢
        rcases h with h | h <;> simp [h]
      · simp only [List.mem_cons] at h ⊢
        rcases h with h | h
        · simp [h]
        · rcases ih h with h | h <;> simp [h]

/-- What an erasure can list. -/
theorem mem_erase {k : Nat} {l : List (Nat × α)} {p : Nat × α} (h : p ∈ erase k l) : p ∈ l ∧ p.1 ≠ k := by
  induction l with
  | nil => simp [erase] at h
  | cons q t ih =>
    obtain ⟨i, w⟩ := q
    simp only [erase] at h
    split at h
    · exact ⟨List.mem_cons_of_mem _ (ih h).1, (ih h).2⟩
    · simp only [List.mem_cons] at h
      rcases h with h | h
      · subst h
        refine ⟨List.mem_cons_self, ?_⟩
        simp only [ne_eq]
        omega
      · exact ⟨List.mem_cons_of_mem _ (ih h).1, (ih h).2⟩

/-- What a modification can list: at key `k` the image of a value listed before. -/
theorem mem_modify {k : Nat} {f : α → α} {l : List (Nat × α)} {p : Nat × α} (h : p ∈ modify k f l) :
    p ∈ l ∨ ∃ w, (k, w) ∈ l ∧ p = (k, f w) := by
  induction l with
  | nil => simp [modify] at h
  | cons q t ih =>
    obtain ⟨i, w⟩ := q
    simp only [modify] at h
    split at h
    · simp only [List.mem_cons] at h ⊢
      subst_vars
      rcases h with h | h
      · exact .inr ⟨w, .inl rfl, h⟩
      · exact .inl (.inr h)
    · simp only [List.mem_cons] at h ⊢
      rcases h with h | h
      · exact .inl (.inl h)
      · rcases ih h with h | ⟨u, hu, e⟩
        · exact .inl (.inr h)
        · exact .inr ⟨u, .inr hu, e⟩

/-- A key's value is one of the entries listed. -/
theorem mem_of_lookup {k : Nat} {l : List (Nat × α)} {v : α} (h : lookup k l = some v) : (k, v) ∈ l := by
  induction l with
  | nil => simp at h
  | cons q t ih =>
    obtain ⟨i, w⟩ := q
    simp only [lookup] at h
    split at h
    · subst_vars
      simp_all
    · exact List.mem_cons_of_mem _ (ih h)

theorem rising_insert {k : Nat} {v : α} {l : List (Nat × α)} (h : Rising l) : Rising (insert k v l) := by
  induction l with
  | nil => simp [insert, Rising]
  | cons q t ih =>
    obtain ⟨i, w⟩ := q
    simp only [Rising, List.pairwise_cons] at h
    simp only [insert]
    split
    · rename_i hk
      simp only [Rising, List.pairwise_cons]
      refine ⟨?_, h.1, h.2⟩
      intro p hp
      simp only [List.mem_cons] at hp
      rcases hp with rfl | hp
      · exact hk
      · exact Nat.lt_trans hk (h.1 p hp)
    · split
      · subst_vars
        simp only [Rising, List.pairwise_cons]
        exact h
      · simp only [Rising, List.pairwise_cons]
        refine ⟨?_, ih h.2⟩
        intro p hp
        rcases mem_insert hp with rfl | hp
        · simp only
          omega
        · exact h.1 p hp

theorem rising_erase {k : Nat} {l : List (Nat × α)} (h : Rising l) : Rising (erase k l) := by
  induction l with
  | nil => simp [erase, Rising]
  | cons q t ih =>
    obtain ⟨i, w⟩ := q
    simp only [Rising, List.pairwise_cons] at h
    simp only [erase]
    split
    · exact ih h.2
    · simp only [Rising, List.pairwise_cons]
      exact ⟨fun p hp => h.1 p (mem_erase hp).1, ih h.2⟩

theorem rising_modify {k : Nat} {f : α → α} {l : List (Nat × α)} (h : Rising l) : Rising (modify k f l) := by
  induction l with
  | nil => simp [modify, Rising]
  | cons q t ih =>
    obtain ⟨i, w⟩ := q
    simp only [Rising, List.pairwise_cons] at h
    simp only [modify]
    split
    · simp only [Rising, List.pairwise_cons]
      exact h
    · simp only [Rising, List.pairwise_cons]
      refine ⟨?_, ih h.2⟩
      intro p hp
      rcases mem_modify hp with hp | ⟨u, hu, rfl⟩
      · exact h.1 p hp
      · exact h.1 (k, u) hu

/-- In canonical form a table is known by its entries at each key. -/
theorem lookup_of_mem {k : Nat} {v : α} {l : List (Nat × α)} (hr : Rising l) (h : (k, v) ∈ l) :
    lookup k l = some v := by
  induction l with
  | nil => simp at h
  | cons q t ih =>
    obtain ⟨i, w⟩ := q
    simp only [Rising, List.pairwise_cons] at hr
    simp only [List.mem_cons, Prod.mk.injEq] at h
    simp only [lookup]
    rcases h with ⟨rfl, rfl⟩ | h
    · simp
    · have := hr.1 _ h
      simp only at this
      rw [if_neg (by omega)]
      exact ih hr.2 h

end Table

/-! ### AM storage -/

@[simp] theorem Memory.write_contents (m : Memory) (i : Nat) (v : Byte) : (m.write i v).contents = m.contents := rfl

/-- A read after a write: the value written there, everything else as before. -/
theorem Memory.read_write (m : Memory) (i j : Nat) (v : Byte) :
    (m.write i v).read j = if j = i then v else m.read j := by
  simp only [Memory.read, Memory.write]
  split
  · rw [Table.lookup_erase]
    split
    · simp_all
    · rfl
  · rw [Table.lookup_insert]
    split <;> rfl

@[simp] theorem Memory.writeBytes_contents (m : Memory) (i : Nat) (bytes : List Byte) :
    (m.writeBytes i bytes).contents = m.contents := by
  induction bytes generalizing i with
  | nil => rfl
  | cons v t ih => simp [Memory.writeBytes, ih]

/-- A read after a run of writes: the byte of the run that falls there, everything else as before. -/
theorem Memory.read_writeBytes (m : Memory) (i j : Nat) (bytes : List Byte) :
    (m.writeBytes i bytes).read j =
      if i ≤ j ∧ j < i + bytes.length then bytes.getD (j - i) 0 else m.read j := by
  induction bytes generalizing i with
  | nil =>
    simp only [Memory.writeBytes, List.length_nil]
    rw [if_neg (by omega)]
  | cons v t ih =>
    simp only [Memory.writeBytes, Memory.read_write, ih, List.length_cons]
    split
    · subst_vars
      rw [if_pos (by omega), Nat.sub_self]
      rfl
    · by_cases h : i + 1 ≤ j ∧ j < i + 1 + t.length
      · rw [if_pos h, if_pos (by omega), show j - i = (j - (i + 1)) + 1 by omega]
        rfl
      · rw [if_neg h, if_neg (by omega)]

@[simp] theorem Memory.readBytes_length (m : Memory) (i n : Nat) : (m.readBytes i n).length = n := by
  induction n generalizing i with
  | zero => rfl
  | succ n ih => simp [Memory.readBytes, ih]

theorem Memory.readBytes_getElem? (m : Memory) (i n k : Nat) :
    (m.readBytes i n)[k]? = if k < n then some (m.read (i + k)) else none := by
  induction n generalizing i k with
  | zero => simp [Memory.readBytes]
  | succ n ih =>
    cases k with
    | zero => simp [Memory.readBytes]
    | succ k =>
      simp only [Memory.readBytes, List.getElem?_cons_succ, ih, Nat.add_lt_add_iff_right]
      rw [show i + 1 + k = i + (k + 1) by omega]

/-- A write below `cap` keeps the canonical form. -/
theorem Memory.write_wf {m : Memory} {cap i : Nat} (h : m.wf cap) (hi : i < cap) (v : Byte) :
    (m.write i v).wf cap := by
  simp only [Memory.wf, Memory.write] at h ⊢
  split
  · exact ⟨Table.rising_erase h.1, fun p hp => h.2 p (Table.mem_erase hp).1⟩
  · refine ⟨Table.rising_insert h.1, fun p hp => ?_⟩
    rcases Table.mem_insert hp with rfl | hp
    · exact ⟨hi, by assumption⟩
    · exact h.2 p hp

/-- A run of writes below `cap` keeps the canonical form. -/
theorem Memory.writeBytes_wf {m : Memory} {cap i : Nat} {bytes : List Byte} (h : m.wf cap)
    (hi : i + bytes.length ≤ cap) : (m.writeBytes i bytes).wf cap := by
  induction bytes generalizing i with
  | nil => exact h
  | cons v t ih =>
    simp only [List.length_cons] at hi
    exact Memory.write_wf (ih (by omega)) (by omega) v

/-- Storage with nothing listed is in canonical form. -/
theorem Memory.nil_wf (c : Contents) (cap : Nat) : ({ contents := c, cells := [] } : Memory).wf cap := by
  simp [Memory.wf, Table.Rising]

/-- Two canonical tables with the same value at every key are the same list. -/
theorem Table.ext_of_rising {α : Type} {l l' : List (Nat × α)} (h : Table.Rising l) (h' : Table.Rising l')
    (heq : ∀ k, Table.lookup k l = Table.lookup k l') : l = l' := by
  induction l generalizing l' with
  | nil =>
    cases l' with
    | nil => rfl
    | cons q t =>
      have := heq q.1
      simp [Table.lookup] at this
  | cons p t ih =>
    cases l' with
    | nil =>
      have := heq p.1
      simp [Table.lookup] at this
    | cons q u =>
      obtain ⟨i, v⟩ := p
      obtain ⟨j, w⟩ := q
      have hpq : (i, v) = (j, w) := by
        have h1 := Table.mem_of_lookup ((heq i).symm.trans (by simp [Table.lookup]) : _ = some v)
        have h2 := Table.mem_of_lookup ((heq j).trans (by simp [Table.lookup]) : _ = some w)
        simp only [Table.Rising, List.pairwise_cons, List.mem_cons] at h h' h1 h2
        rcases h1 with h1 | h1
        · exact h1
        · rcases h2 with h2 | h2
          · exact h2.symm
          · have a := h.1 _ h2
            have b := h'.1 _ h1
            simp only at a b
            omega
      cases hpq
      simp only [Table.Rising, List.pairwise_cons] at h h'
      congr 1
      refine ih h.2 h'.2 fun k => ?_
      have hk := heq k
      simp only [Table.lookup] at hk
      split at hk
      · subst_vars
        have none_of : ∀ {s : List (Nat × α)}, (∀ p ∈ s, k < p.1) → Table.lookup k s = none := by
          intro s hs
          cases hl : Table.lookup k s with
          | none => rfl
          | some x => exact absurd (hs _ (Table.mem_of_lookup hl)) (Nat.lt_irrefl _)
        rw [none_of h.1, none_of h'.1]
      · exact hk

/-- Equal memories are equal data: two canonical storages left alike by construction, with the same bytes. -/
theorem Memory.ext_of_read {m m' : Memory} {cap : Nat} (h : m.wf cap) (h' : m'.wf cap)
    (hc : m.contents = m'.contents) (hr : ∀ i, m.read i = m'.read i) : m = m' := by
  obtain ⟨c, l⟩ := m
  obtain ⟨c', l'⟩ := m'
  cases hc
  congr 1
  refine Table.ext_of_rising h.1 h'.1 fun k => ?_
  have hk := hr k
  simp only [Memory.read] at hk
  cases e : Table.lookup k l with
  | none =>
    cases e' : Table.lookup k l' with
    | none => rfl
    | some w =>
      have := (h'.2 _ (Table.mem_of_lookup e')).2
      simp_all
  | some v =>
    have hv := (h.2 _ (Table.mem_of_lookup e)).2
    cases e' : Table.lookup k l' with
    | none => simp_all
    | some w => simp_all

end Sys2Proof.Machine
end

