-- ==== Sys2Proof/Laws/State.lean ====
section
/-! SUPPORT. One lemma per field per update of the state, and what the current port's block holds after each. -/

namespace Sys2Proof.Machine

/-! ### Fields of the record -/
@[simp] theorem State.modifyHere_port (s : State) (f : Block → Block) : (s.modifyHere f).port = s.port := rfl
@[simp] theorem State.modifyHere_files (s : State) (f : Block → Block) : (s.modifyHere f).files = s.files := rfl
@[simp] theorem State.modifyHere_out (s : State) (f : Block → Block) : (s.modifyHere f).out = s.out := rfl
@[simp] theorem State.modifyHere_inbox (s : State) (f : Block → Block) : (s.modifyHere f).inbox = s.inbox := rfl
@[simp] theorem State.modifyHere_draws (s : State) (f : Block → Block) : (s.modifyHere f).draws = s.draws := rfl
@[simp] theorem State.modifyHere_launch (s : State) (f : Block → Block) : (s.modifyHere f).launch = s.launch := rfl

@[simp] theorem State.setAm_port (s : State) (m : Am) : (s.setAm m).port = s.port := rfl
@[simp] theorem State.setAm_files (s : State) (m : Am) : (s.setAm m).files = s.files := rfl
@[simp] theorem State.setAm_out (s : State) (m : Am) : (s.setAm m).out = s.out := rfl
@[simp] theorem State.setAm_inbox (s : State) (m : Am) : (s.setAm m).inbox = s.inbox := rfl
@[simp] theorem State.setAm_draws (s : State) (m : Am) : (s.setAm m).draws = s.draws := rfl
@[simp] theorem State.setAm_launch (s : State) (m : Am) : (s.setAm m).launch = s.launch := rfl

@[simp] theorem State.setRf_port (s : State) (x : Rf) : (s.setRf x).port = s.port := rfl
@[simp] theorem State.setRf_files (s : State) (x : Rf) : (s.setRf x).files = s.files := rfl
@[simp] theorem State.setRf_out (s : State) (x : Rf) : (s.setRf x).out = s.out := rfl
@[simp] theorem State.setRf_inbox (s : State) (x : Rf) : (s.setRf x).inbox = s.inbox := rfl
@[simp] theorem State.setRf_draws (s : State) (x : Rf) : (s.setRf x).draws = s.draws := rfl
@[simp] theorem State.setRf_launch (s : State) (x : Rf) : (s.setRf x).launch = s.launch := rfl

@[simp] theorem State.reply_port (s : State) (r : Response) : (s.reply r).port = s.port := rfl
@[simp] theorem State.reply_files (s : State) (r : Response) : (s.reply r).files = s.files := rfl
@[simp] theorem State.reply_out (s : State) (r : Response) : (s.reply r).out = s.out := rfl
@[simp] theorem State.reply_inbox (s : State) (r : Response) : (s.reply r).inbox = s.inbox := rfl
@[simp] theorem State.reply_draws (s : State) (r : Response) : (s.reply r).draws = s.draws := rfl
@[simp] theorem State.reply_launch (s : State) (r : Response) : (s.reply r).launch = s.launch := rfl

@[simp] theorem State.emit_blocks (s : State) (text : List Char) : (s.emit text).blocks = s.blocks := rfl
@[simp] theorem State.emit_port (s : State) (text : List Char) : (s.emit text).port = s.port := rfl
@[simp] theorem State.emit_files (s : State) (text : List Char) : (s.emit text).files = s.files := rfl
@[simp] theorem State.emit_inbox (s : State) (text : List Char) : (s.emit text).inbox = s.inbox := rfl
@[simp] theorem State.emit_draws (s : State) (text : List Char) : (s.emit text).draws = s.draws := rfl
@[simp] theorem State.emit_launch (s : State) (text : List Char) : (s.emit text).launch = s.launch := rfl
@[simp] theorem State.emit_out (s : State) (text : List Char) : (s.emit text).out = s.out ++ text := rfl

@[simp] theorem State.setFile_blocks (s : State) (h : Half) (bytes : List Byte) :
    (s.setFile h bytes).blocks = s.blocks := rfl
@[simp] theorem State.setFile_port (s : State) (h : Half) (bytes : List Byte) :
    (s.setFile h bytes).port = s.port := rfl
@[simp] theorem State.setFile_out (s : State) (h : Half) (bytes : List Byte) :
    (s.setFile h bytes).out = s.out := rfl
@[simp] theorem State.setFile_inbox (s : State) (h : Half) (bytes : List Byte) :
    (s.setFile h bytes).inbox = s.inbox := rfl
@[simp] theorem State.setFile_draws (s : State) (h : Half) (bytes : List Byte) :
    (s.setFile h bytes).draws = s.draws := rfl
@[simp] theorem State.setFile_launch (s : State) (h : Half) (bytes : List Byte) :
    (s.setFile h bytes).launch = s.launch := rfl
@[simp] theorem State.setFile_files (s : State) (h : Half) (bytes : List Byte) :
    (s.setFile h bytes).files = Table.insert h.toNat bytes s.files := rfl

/-! ### The units of an instance -/

@[simp] theorem Block.setAm_owner (b : Block) (m : Am) : (b.setAm m).owner = b.owner := by
  unfold Block.setAm; split <;> rfl

@[simp] theorem Block.setAm_response (b : Block) (m : Am) : (b.setAm m).response = b.response := by
  unfold Block.setAm; split <;> rfl

@[simp] theorem Block.setAm_rf (b : Block) (m : Am) : (b.setAm m).rf = b.rf := by
  unfold Block.setAm; split <;> simp_all [Block.rf]

theorem Block.setAm_am (b : Block) (m : Am) : (b.setAm m).am = b.am.map fun _ => m := by
  unfold Block.setAm; split <;> simp_all [Block.am]

@[simp] theorem Block.setRf_owner (b : Block) (x : Rf) : (b.setRf x).owner = b.owner := by
  unfold Block.setRf; split <;> rfl

@[simp] theorem Block.setRf_response (b : Block) (x : Rf) : (b.setRf x).response = b.response := by
  unfold Block.setRf; split <;> rfl

@[simp] theorem Block.setRf_am (b : Block) (x : Rf) : (b.setRf x).am = b.am := by
  unfold Block.setRf; split <;> simp_all [Block.am]

theorem Block.setRf_rf (b : Block) (x : Rf) : (b.setRf x).rf = b.rf.map fun _ => x := by
  unfold Block.setRf; split <;> simp_all [Block.rf]

/-- An instance is an AM or an RF, never both. -/
theorem Block.rf_isSome (b : Block) : b.rf.isSome = !b.am.isSome := by
  unfold Block.rf Block.am; split <;> simp_all

/-! ### The block behind the current port -/

@[simp] theorem State.modifyHere_here (s : State) (f : Block → Block) : (s.modifyHere f).here = s.here.map f := by
  simp [State.here, State.modifyHere]

@[simp] theorem State.setAm_here (s : State) (m : Am) :
    (s.setAm m).here = s.here.map (Block.setAm · m) := by
  simp [State.setAm]

@[simp] theorem State.setRf_here (s : State) (x : Rf) :
    (s.setRf x).here = s.here.map (Block.setRf · x) := by
  simp [State.setRf]

@[simp] theorem State.reply_here (s : State) (r : Response) :
    (s.reply r).here = s.here.map fun b => { b with response := some r } := by
  simp [State.reply]

@[simp] theorem State.emit_here (s : State) (text : List Char) : (s.emit text).here = s.here := rfl

@[simp] theorem State.setFile_here (s : State) (h : Half) (bytes : List Byte) : (s.setFile h bytes).here = s.here := rfl

/-- A modification leaves every other block as it is. -/
theorem State.modifyHere_other (s : State) (f : Block → Block) {n : Nat} (h : n ≠ s.port) :
    Table.lookup n (s.modifyHere f).blocks = Table.lookup n s.blocks :=
  Table.lookup_modify_other h f s.blocks

/-! ### The units and the response -/

@[simp] theorem State.setAm_rf (s : State) (m : Am) : (s.setAm m).rf = s.rf := by
  simp only [State.rf, State.setAm_here]
  cases s.here <;> simp

@[simp] theorem State.setAm_response (s : State) (m : Am) : (s.setAm m).response = s.response := by
  simp only [State.response, State.setAm_here]
  cases s.here <;> simp

@[simp] theorem State.setRf_am (s : State) (x : Rf) : (s.setRf x).am = s.am := by
  simp only [State.am, State.setRf_here]
  cases s.here <;> simp

@[simp] theorem State.setRf_response (s : State) (x : Rf) : (s.setRf x).response = s.response := by
  simp only [State.response, State.setRf_here]
  cases s.here <;> simp

@[simp] theorem State.reply_am (s : State) (r : Response) : (s.reply r).am = s.am := by
  simp only [State.am, State.reply_here]
  cases s.here <;> rfl

@[simp] theorem State.reply_rf (s : State) (r : Response) : (s.reply r).rf = s.rf := by
  simp only [State.rf, State.reply_here]
  cases s.here <;> rfl

@[simp] theorem State.emit_am (s : State) (text : List Char) : (s.emit text).am = s.am := rfl

@[simp] theorem State.setFile_am (s : State) (h : Half) (bytes : List Byte) : (s.setFile h bytes).am = s.am := rfl

@[simp] theorem State.emit_rf (s : State) (text : List Char) : (s.emit text).rf = s.rf := rfl

@[simp] theorem State.setFile_rf (s : State) (h : Half) (bytes : List Byte) : (s.setFile h bytes).rf = s.rf := rfl

@[simp] theorem State.emit_response (s : State) (text : List Char) : (s.emit text).response = s.response := rfl

@[simp] theorem State.setFile_response (s : State) (h : Half) (bytes : List Byte) : (s.setFile h bytes).response = s.response := rfl

/-- A unit behind the current port means a block there. -/
theorem State.here_of_am {s : State} {m : Am} (h : s.am = some m) : ∃ b, s.here = some b ∧ b.am = some m := by
  simpa [State.am, Option.bind_eq_some_iff] using h

theorem State.here_of_rf {s : State} {x : Rf} (h : s.rf = some x) : ∃ b, s.here = some b ∧ b.rf = some x := by
  simpa [State.rf, Option.bind_eq_some_iff] using h

theorem State.setAm_am {s : State} {m : Am} (h : s.am = some m) (m' : Am) : (s.setAm m').am = some m' := by
  obtain ⟨b, hb, ha⟩ := State.here_of_am h
  simp [State.am, hb, Block.setAm_am, ha]

theorem State.setRf_rf {s : State} {x : Rf} (h : s.rf = some x) (x' : Rf) : (s.setRf x').rf = some x' := by
  obtain ⟨b, hb, hx⟩ := State.here_of_rf h
  simp [State.rf, hb, Block.setRf_rf, hx]

theorem State.reply_response {s : State} (h : s.here.isSome) (r : Response) : (s.reply r).response = some r := by
  obtain ⟨b, hb⟩ := Option.isSome_iff_exists.mp h
  simp [State.response, hb]

theorem State.here_isSome_of_am {s : State} {m : Am} (h : s.am = some m) : s.here.isSome := by
  obtain ⟨b, hb, -⟩ := State.here_of_am h
  simp [hb]

theorem State.here_isSome_of_rf {s : State} {x : Rf} (h : s.rf = some x) : s.here.isSome := by
  obtain ⟨b, hb, -⟩ := State.here_of_rf h
  simp [hb]

/-- A file written reads back, and every other handle is as before (20_memory.md R60). -/
theorem State.file_setFile (s : State) (h k : Half) (bytes : List Byte) :
    (s.setFile h bytes).file k = if k = h then some bytes else s.file k := by
  simp only [State.file, State.setFile_files, Table.lookup_insert]
  split <;> split <;> simp_all [BitVec.toNat_inj]

@[simp] theorem State.file_reply (s : State) (r : Response) (h : Half) : (s.reply r).file h = s.file h := rfl

@[simp] theorem State.file_setAm (s : State) (m : Am) (h : Half) : (s.setAm m).file h = s.file h := rfl

@[simp] theorem State.file_setRf (s : State) (x : Rf) (h : Half) : (s.setRf x).file h = s.file h := rfl

/-! ### RF storage -/

@[simp] theorem Rf.byte_setByte_same (x : Rf) (o : Fin 26) (v : Byte) : (x.setByte o v).byte o = v := by
  simp [Rf.byte, Rf.setByte]

theorem Rf.byte_setByte (x : Rf) (o p : Fin 26) (v : Byte) :
    (x.setByte o v).byte p = if p = o then v else x.byte p := by
  simp only [Rf.byte, Rf.setByte]
  rw [Vector.getElem_set]
  split <;> split <;> simp_all [Fin.ext_iff]

/-- A word write: its low byte at `o`, its high byte at `o + 1`, every other byte as before (20_memory.md R52). -/
theorem Rf.byte_setWord (x : Rf) (o : Fin 25) (p : Fin 26) (v : Half) :
    (x.setWord o v).byte p = if p = o.succ then high8 v else if p = o.castSucc then low8 v else x.byte p := by
  simp [Rf.setWord, Rf.byte_setByte]

end Sys2Proof.Machine
end

