-- ==== Sys2Proof/Laws/Ops.lean ====
section
/-! SUPPORT. What each shared operation can do, and what each operand check decides, said once. -/

namespace Sys2Proof.Machine

/-! ### How a command ends -/

theorem done_next {r : RData} {s t : State} (h : done r s = .next t) : t = s.reply (.ok r) := by
  cases h
  rfl

theorem raise_next {e : Error} {s t : State} (h : raise e s = .next t) : t = s.reply (.error e) := by
  cases h
  rfl

@[simp] theorem orRaise_ok {α : Type} (a : α) (s : State) (k : α → Result) : orRaise (.ok a) s k = k a := rfl

@[simp] theorem orRaise_error {α : Type} (e : Error) (s : State) (k : α → Result) :
    orRaise (.error e) s k = raise e s := rfl

/-- A checked operand either passes and the command goes on, or its error is the response. -/
theorem orRaise_next {α : Type} {c : Except Error α} {s t : State} {k : α → Result} (h : orRaise c s k = .next t) :
    (∃ a, c = .ok a ∧ k a = .next t) ∨ (∃ e, c = .error e ∧ t = s.reply (.error e)) := by
  cases c with
  | ok a => exact .inl ⟨a, rfl, h⟩
  | error e => exact .inr ⟨e, rfl, raise_next h⟩

theorem withAm_some {s : State} {m : Am} (h : s.am = some m) (k : Am → Result) : withAm s k = k m := by
  simp [withAm, h]

theorem withAm_none {s : State} (h : s.am = none) (k : Am → Result) : withAm s k = .fault .noUnit := by
  simp [withAm, h]

theorem withRf_some {s : State} {x : Rf} (h : s.rf = some x) (k : Rf → Result) : withRf s k = k x := by
  simp [withRf, h]

theorem withRf_none {s : State} (h : s.rf = none) (k : Rf → Result) : withRf s k = .fault .noUnit := by
  simp [withRf, h]

theorem withAm_next {s t : State} {k : Am → Result} (h : withAm s k = .next t) :
    ∃ m, s.am = some m ∧ k m = .next t := by
  unfold withAm at h
  split at h
  · exact ⟨_, by assumption, h⟩
  · cases h

theorem withRf_next {s t : State} {k : Rf → Result} (h : withRf s k = .next t) :
    ∃ x, s.rf = some x ∧ k x = .next t := by
  unfold withRf at h
  split at h
  · exact ⟨_, by assumption, h⟩
  · cases h

/-! ### The operand checks -/

theorem byteOffset_ok {o : Half} (h : o.toNat < 26) : byteOffset o = .ok ⟨o.toNat, h⟩ := by
  simp [byteOffset, h]

theorem byteOffset_error {o : Half} (h : 26 ≤ o.toNat) : byteOffset o = .error (.outOfRange o.toNat) := by
  simp [byteOffset, Nat.not_lt.mpr h]

theorem wordOffset_ok {o : Half} (h : o.toNat < 25) : wordOffset o = .ok ⟨o.toNat, h⟩ := by
  rw [wordOffset, dif_pos (by omega)]

theorem wordOffset_error {o : Half} (h : 25 ≤ o.toNat) : wordOffset o = .error (.outOfRange o.toNat) := by
  rw [wordOffset, dif_neg (by omega)]

theorem address_ok {m : Am} {a : Half} (hb : m.base.toNat ≤ a.toNat) (he : a.toNat ≤ m.last) :
    address m a = .ok a.toNat := by
  rw [address, if_neg (by omega)]

theorem address_error {m : Am} {a : Half} (h : a.toNat < m.base.toNat ∨ m.last < a.toNat) :
    address m a = .error (.outOfRange a.toNat) := by
  rw [address, if_pos h]

theorem spanCheck_ok {m : Am} {b e : Nat} (hbe : b ≤ e) (hc : e - b + 1 ≤ m.cap) (hb : m.base.toNat ≤ b)
    (he : e ≤ m.last) : spanCheck m b e = .ok (b, e) := by
  rw [spanCheck, if_neg (by omega), if_neg (by omega), if_neg (by omega)]

/-- A span that passes is the span asked for, in order, within the window (40_addressed_memory.md R91). -/
theorem spanCheck_eq_ok {m : Am} {b e : Nat} {r : Nat × Nat} (h : spanCheck m b e = .ok r) :
    r = (b, e) ∧ b ≤ e ∧ e - b + 1 ≤ m.cap ∧ m.base.toNat ≤ b ∧ e ≤ m.last := by
  unfold spanCheck at h
  split at h
  · cases h
  · split at h
    · cases h
    · split at h
      · cases h
      · cases h
        exact ⟨rfl, by omega, by omega, by omega, by omega⟩

theorem address_eq_ok {m : Am} {a : Half} {n : Nat} (h : address m a = .ok n) :
    n = a.toNat ∧ m.base.toNat ≤ a.toNat ∧ a.toNat ≤ m.last := by
  unfold address at h
  split at h
  · cases h
  · cases h
    exact ⟨rfl, by omega, by omega⟩

theorem byteOffset_eq_ok {o : Half} {i : Fin 26} (h : byteOffset o = .ok i) : i.val = o.toNat := by
  unfold byteOffset at h
  split at h <;> cases h
  rfl

theorem wordOffset_eq_ok {o : Half} {i : Fin 25} (h : wordOffset o = .ok i) : i.val = o.toNat := by
  unfold wordOffset at h
  split at h <;> cases h
  rfl

/-- An image that passes is the file, of exactly `CAP` bytes (40_addressed_memory.md R100). -/
theorem imageFile_eq_ok {file : Option (List Byte)} {h : Half} {cap : Nat} {bytes : List Byte}
    (hi : imageFile file h cap = .ok bytes) : file = some bytes ∧ bytes.length = cap := by
  unfold imageFile at hi
  split at hi
  · cases hi
  · split at hi <;> cases hi
    exact ⟨rfl, by assumption⟩

theorem freshFile_eq_ok {s : State} {h : Half} {u : Unit} (hi : freshFile s h = .ok u) : s.file h = none := by
  unfold freshFile at hi
  split at hi
  · cases hi
  · simp_all

/-! ### AM units -/

@[simp] theorem Am.write_base (m : Am) (a : Nat) (v : Byte) : (m.write a v).base = m.base := rfl
@[simp] theorem Am.write_cap (m : Am) (a : Nat) (v : Byte) : (m.write a v).cap = m.cap := rfl
@[simp] theorem Am.writeBytes_base (m : Am) (a : Nat) (bytes : List Byte) : (m.writeBytes a bytes).base = m.base := rfl
@[simp] theorem Am.writeBytes_cap (m : Am) (a : Nat) (bytes : List Byte) : (m.writeBytes a bytes).cap = m.cap := rfl

/-- A read after a write, at addresses of the window. -/
theorem Am.read_write {m : Am} {a c : Nat} (ha : m.base.toNat ≤ a) (hc : m.base.toNat ≤ c) (v : Byte) :
    (m.write a v).read c = if c = a then v else m.read c := by
  simp only [Am.read, Am.write, Am.index, Memory.read_write]
  split <;> split <;> first | rfl | omega

/-- A read after a run of writes, at addresses of the window. -/
theorem Am.read_writeBytes {m : Am} {a c : Nat} (ha : m.base.toNat ≤ a) (hc : m.base.toNat ≤ c)
    (bytes : List Byte) :
    (m.writeBytes a bytes).read c =
      if a ≤ c ∧ c < a + bytes.length then bytes.getD (c - a) 0 else m.read c := by
  simp only [Am.read, Am.writeBytes, Am.index, Memory.read_writeBytes]
  by_cases h : a ≤ c ∧ c < a + bytes.length
  · rw [if_pos h, if_pos (by omega)]
    congr 1
    omega
  · rw [if_neg h, if_neg (by omega)]

@[simp] theorem Am.bytes_length (m : Am) (b e : Nat) : (m.bytes b e).length = e + 1 - b := by
  simp [Am.bytes]

/-- The bytes of a span, by position. -/
theorem Am.bytes_getElem? {m : Am} {b e k : Nat} (hb : m.base.toNat ≤ b) (hk : k < e + 1 - b) :
    (m.bytes b e)[k]? = some (m.read (b + k)) := by
  simp only [Am.bytes, Memory.readBytes_getElem?, if_pos hk, Am.read, Am.index]
  congr 2
  omega

/-! ### The host's requests -/

/-- A request that only the owner may make: the block is there and the agent owns it. -/
theorem asOwner_next {agent port : Nat} {s t : State} {k : Block → Result} (h : asOwner agent port s k = .next t) :
    ∃ b, Table.lookup port s.blocks = some b ∧ b.owner = agent ∧ k b = .next t := by
  unfold asOwner at h
  split at h
  · cases h
  · split at h
    · exact ⟨_, by assumption, by assumption, h⟩
    · cases h

theorem asOwner_eq {agent port : Nat} {s : State} {b : Block} (hb : Table.lookup port s.blocks = some b)
    (ho : b.owner = agent) (k : Block → Result) : asOwner agent port s k = k b := by
  simp [asOwner, hb, ho]

theorem asOwner_notOwner {agent port : Nat} {s : State} {b : Block} (hb : Table.lookup port s.blocks = some b)
    (ho : b.owner ≠ agent) (k : Block → Result) : asOwner agent port s k = .fault .notOwner := by
  simp [asOwner, hb, ho]

/-- A construction goes on at a port with no instance, and only there. -/
theorem atFreePort_next {port : Nat} {s t : State} {k : Result} (h : atFreePort port s k = .next t) :
    Table.lookup port s.blocks = none ∧ k = .next t := by
  unfold atFreePort at h
  split at h
  · exact ⟨by assumption, h⟩
  · cases h

theorem atFreePort_eq {port : Nat} {s : State} (h : Table.lookup port s.blocks = none) (k : Result) :
    atFreePort port s k = k := by
  simp [atFreePort, h]

theorem atFreePort_live {port : Nat} {s : State} {b : Block} (h : Table.lookup port s.blocks = some b) (k : Result) :
    atFreePort port s k = .fault .unitExists := by
  simp [atFreePort, h]

/-- What stands at each port once an instance is put at one. -/
@[simp] theorem State.putBlock_lookup (s : State) (port n : Nat) (b : Block) :
    Table.lookup n (s.putBlock port b).blocks = if n = port then some b else Table.lookup n s.blocks :=
  Table.lookup_insert _ _ _ _

@[simp] theorem State.constructed_blocks (s : State) : s.constructed.blocks = s.blocks := rfl

/-! ### Named registers -/

/-- The byte at a word register's offset is its low byte. -/
@[simp] theorem WordReg.offset_castSucc (reg : WordReg) : reg.offset.castSucc = Config.regLayout.low reg := by
  cases reg <;> rfl

/-- The byte after it is its high byte. -/
@[simp] theorem WordReg.offset_succ (reg : WordReg) : reg.offset.succ = Config.regLayout.high reg := by
  cases reg <;> rfl

end Sys2Proof.Machine
end

