-- ==== Sys2Proof/Laws/Safety.lean ====
section
/-! SUPPORT. What the updates leave alone, in the words of Safety. -/

namespace Sys2Proof.Machine

theorem State.SameOutside.refl (s : State) : s.SameOutside s :=
  ⟨fun _ _ => rfl, rfl, rfl, rfl, rfl, rfl⟩

theorem State.SameOutside.trans {s t u : State} (h : s.SameOutside t) (k : t.SameOutside u) : s.SameOutside u := by
  obtain ⟨h1, h2, h3, h4, h5, h6⟩ := h
  obtain ⟨k1, k2, k3, k4, k5, k6⟩ := k
  exact ⟨fun n hn => (k1 n (h3 ▸ hn)).trans (h1 n hn), k2.trans h2, k3.trans h3, k4.trans h4, k5.trans h5, k6.trans h6⟩

/-- A change of the current port's block that keeps the owner leaves everything outside alone. -/
theorem State.sameOutside_modifyHere (s : State) {f : Block → Block} (hf : ∀ b, (f b).owner = b.owner) :
    s.SameOutside (s.modifyHere f) := by
  refine ⟨fun n hn => State.modifyHere_other s f hn, ?_, rfl, rfl, rfl, rfl⟩
  simp only [State.owner, State.modifyHere_here]
  cases s.here <;> simp [hf]

theorem State.sameOutside_reply (s : State) (r : Response) : s.SameOutside (s.reply r) :=
  State.sameOutside_modifyHere s fun b => by simp

theorem State.sameOutside_setAm (s : State) (m : Am) : s.SameOutside (s.setAm m) :=
  State.sameOutside_modifyHere s fun b => by simp

theorem State.sameOutside_setRf (s : State) (x : Rf) : s.SameOutside (s.setRf x) :=
  State.sameOutside_modifyHere s fun b => by simp

theorem State.sameOutside_emit (s : State) (text : List Char) : s.SameOutside (s.emit text) :=
  ⟨fun _ _ => rfl, rfl, rfl, rfl, rfl, rfl⟩

theorem State.sameOutside_setFile (s : State) (h : Half) (bytes : List Byte) : s.SameOutside (s.setFile h bytes) :=
  ⟨fun _ _ => rfl, rfl, rfl, rfl, rfl, rfl⟩

/-- A response alone changes nothing but the response. -/
theorem State.onlyResponse_reply (s : State) (r : Response) : s.OnlyResponse (s.reply r) :=
  ⟨State.reply_am s r, State.reply_rf s r, ⟨rfl, rfl⟩, State.sameOutside_reply s r⟩

/-- Raising an error is a next state that holds it as the response and changes nothing else (60_exceptions.md
R161). -/
theorem raise_spec {s : State} (h : s.here.isSome) (e : Error) :
    ∃ t, raise e s = .next t ∧ t.response = some (.error e) ∧ s.OnlyResponse t :=
  ⟨_, rfl, State.reply_response h _, State.onlyResponse_reply s _⟩

/-- Ending a command that writes nothing. -/
theorem done_spec {s : State} (h : s.here.isSome) (r : RData) :
    ∃ t, done r s = .next t ∧ t.response = some (.ok r) ∧ s.OnlyResponse t :=
  ⟨_, rfl, State.reply_response h _, State.onlyResponse_reply s _⟩

/-- The unit of a command, by its constructor (30_encoding.md R72). -/
theorem usesAm_iff (i : Instr) :
    usesAm i = true ↔ i.opcode ∈ [.mrd, .mwr, .mfill, .mdump, .msave, .mload, .mbegin, .mend, .msize] := by
  cases i <;> simp [usesAm, Instr.opcode, Opcode.bits]

/-! ### What keeps the invariant -/

theorem Block.Ok.of_am {b b' : Block} (h : b.Ok) (ha : b'.am = b.am) : b'.Ok := by
  unfold Block.Ok at h ⊢
  rwa [ha]

/-- A block table stays as it should when a block is changed into a well-formed one. -/
theorem State.Inv.modifyHere {s : State} (h : s.Inv) {f : Block → Block} (hf : ∀ b, s.here = some b → b.Ok → (f b).Ok) :
    (s.modifyHere f).Inv := by
  refine ⟨Table.rising_modify h.1, fun p hp => ?_, h.2.2.1, h.2.2.2⟩
  rcases Table.mem_modify hp with hp | ⟨b, hb, rfl⟩
  · exact h.2.1 p hp
  · exact hf b (Table.lookup_of_mem h.1 hb) (h.2.1 _ hb)

theorem State.Inv.reply {s : State} (h : s.Inv) (r : Response) : (s.reply r).Inv :=
  h.modifyHere fun _ _ hb => hb.of_am rfl

theorem State.Inv.setRf {s : State} (h : s.Inv) (x : Rf) : (s.setRf x).Inv :=
  h.modifyHere fun b _ hb => hb.of_am (b.setRf_am x)

theorem State.Inv.setAm {s : State} (h : s.Inv) {m : Am} (hm : m.Ok) : (s.setAm m).Inv :=
  by
  refine h.modifyHere fun b _ _ m' e => ?_
  rw [Block.setAm_am, Option.map_eq_some_iff] at e
  obtain ⟨_, -, rfl⟩ := e
  exact hm

theorem State.Inv.setFile {s : State} (h : s.Inv) (g : Half) (bytes : List Byte) : (s.setFile g bytes).Inv := by
  refine ⟨h.1, h.2.1, Table.rising_insert h.2.2.1, fun p hp => ?_⟩
  rcases Table.mem_insert hp with rfl | hp
  · exact g.isLt
  · exact h.2.2.2 p hp

theorem State.Inv.emit {s : State} (h : s.Inv) (text : List Char) : (s.emit text).Inv := h

theorem State.Inv.am {s : State} (h : s.Inv) {m : Am} (hm : s.am = some m) : m.Ok := by
  obtain ⟨b, hb, ha⟩ := State.here_of_am hm
  exact h.2.1 _ (Table.mem_of_lookup hb) m ha

/-- A run of writes within the window keeps an AM unit well-formed. -/
theorem Am.Ok.writeBytes {m : Am} (h : m.Ok) {a : Nat} {bytes : List Byte} (ha : m.base.toNat ≤ a)
    (he : a + bytes.length ≤ m.base.toNat + m.cap) : (m.writeBytes a bytes).Ok := by
  obtain ⟨h1, h2, h3, h4⟩ := h
  refine ⟨h1, h2, Memory.writeBytes_wf h3 ?_, ?_⟩
  · simp only [Am.index, Am.writeBytes_cap]
    omega
  · simpa [Am.writeBytes] using h4

theorem Am.Ok.write {m : Am} (h : m.Ok) {a : Nat} {v : Byte} (ha : m.base.toNat ≤ a)
    (he : a < m.base.toNat + m.cap) : (m.write a v).Ok := by
  obtain ⟨h1, h2, h3, h4⟩ := h
  refine ⟨h1, h2, Memory.write_wf h3 ?_ v, h4⟩
  simp only [Am.index]
  omega

/-! ### The assembler, in the words of Safety -/

/-- A line assembles as its check and the fields of its command's encoding say. -/
theorem assemblesTo_of_encode {l : AsmLine} {fit : Prop} {op fsel rng a0 a1 d : Nat} (o : Opcode) (f : BitVec 3)
    (r : BitVec 1) (x y z : Half) (hw : l.wellFormed = true ↔ fit)
    (he : encode (asmInstr l) = assembleWord o f r x y z)
    (h : l.wellFormed = true → o.bits.toNat = op ∧ f.toNat = fsel ∧ r.toNat = rng ∧ x.toNat = a0 ∧
      y.toNat = a1 ∧ z.toNat = d) : AssemblesTo l fit op fsel rng a0 a1 d := by
  refine ⟨?_, fun w hl => ?_⟩
  · rw [← hw]
    unfold assemble
    split <;> simp [*]
  · unfold assemble at hl
    split at hl
    · cases hl
      rw [he]
      simpa using h ‹_›
    · cases hl

end Sys2Proof.Machine
end

