-- ==== Sys2Proof/Laws/Exec.lean ====
section
/-! SUPPORT. What a command can do, said once: every next state of `exec` is one of six kinds. -/

namespace Sys2Proof.Machine

/-- How a command writes the RF: `x'` is what its meaning makes of `x`. -/
def RfWrite (i : Instr) (x x' : Rf) : Prop :=
  (∃ o v, ∃ p : Fin 26, i = .rwrb o v ∧ p.val = o.toNat ∧ x' = x.setByte p v) ∨
  (∃ o v, ∃ p : Fin 25, i = .rwrw o v ∧ p.val = o.toNat ∧ x' = x.setWord p v) ∨
  (∃ f, i = .rsetf f ∧ x' = x.setFlags (setFlag f x.flags)) ∨
  (∃ f, i = .rclrf f ∧ x' = x.setFlags (clearFlag f x.flags))

/-- A command that ends in a next state has replied an error, or replied a result, or written the RF, or written a
run of cells within the window, or emitted text, or written an absent file. -/
theorem exec_next {i : Instr} {s t : State} (h : exec i s = .next t) :
    (∃ e, t = s.reply (.error e)) ∨
    (∃ r, t = s.reply (.ok r) ∧ i.opcode ∈ [.rrdb, .rrdw, .rgetf, .mrd, .mbegin, .mend, .msize]) ∨
    (∃ x x', s.rf = some x ∧ t = (s.setRf x').reply (.ok 0) ∧ RfWrite i x x') ∨
    (∃ m a bytes, s.am = some m ∧ m.base.toNat ≤ a ∧ a + bytes.length ≤ m.last + 1 ∧
      t = (s.setAm (m.writeBytes a bytes)).reply (.ok 0) ∧ i.opcode ∈ [.mwr, .mfill, .mload]) ∨
    (∃ text r, t = (s.emit text).reply (.ok r) ∧ i.opcode ∈ [.mdump, .rdumpf]) ∨
    (∃ g sp bytes, i = .msave g sp ∧ s.file g = none ∧ t = (s.setFile g bytes).reply (.ok 0)) := by
  cases i with
  | rrdb o =>
    obtain ⟨x, hx, h⟩ := withRf_next h
    rcases orRaise_next h with ⟨p, -, h⟩ | ⟨e, -, h⟩
    · exact .inr (.inl ⟨_, done_next h, by simp [Instr.opcode]⟩)
    · exact .inl ⟨e, h⟩
  | rwrb o v =>
    obtain ⟨x, hx, h⟩ := withRf_next h
    rcases orRaise_next h with ⟨p, hp, h⟩ | ⟨e, -, h⟩
    · exact .inr (.inr (.inl ⟨x, _, hx, done_next h, .inl ⟨o, v, p, rfl, byteOffset_eq_ok hp, rfl⟩⟩))
    · exact .inl ⟨e, h⟩
  | rrdw o =>
    obtain ⟨x, hx, h⟩ := withRf_next h
    rcases orRaise_next h with ⟨p, -, h⟩ | ⟨e, -, h⟩
    · exact .inr (.inl ⟨_, done_next h, by simp [Instr.opcode]⟩)
    · exact .inl ⟨e, h⟩
  | rwrw o v =>
    obtain ⟨x, hx, h⟩ := withRf_next h
    rcases orRaise_next h with ⟨p, hp, h⟩ | ⟨e, -, h⟩
    · exact .inr (.inr (.inl ⟨x, _, hx, done_next h, .inr (.inl ⟨o, v, p, rfl, wordOffset_eq_ok hp, rfl⟩)⟩))
    · exact .inl ⟨e, h⟩
  | rgetf f =>
    obtain ⟨x, hx, h⟩ := withRf_next h
    exact .inr (.inl ⟨_, done_next h, by simp [Instr.opcode]⟩)
  | rsetf f =>
    obtain ⟨x, hx, h⟩ := withRf_next h
    exact .inr (.inr (.inl ⟨x, _, hx, done_next h, .inr (.inr (.inl ⟨f, rfl, rfl⟩))⟩))
  | rclrf f =>
    obtain ⟨x, hx, h⟩ := withRf_next h
    exact .inr (.inr (.inl ⟨x, _, hx, done_next h, .inr (.inr (.inr ⟨f, rfl, rfl⟩))⟩))
  | rdumpf =>
    obtain ⟨x, hx, h⟩ := withRf_next h
    exact .inr (.inr (.inr (.inr (.inl ⟨_, _, done_next h, by simp [Instr.opcode]⟩))))
  | mrd a =>
    obtain ⟨m, hm, h⟩ := withAm_next h
    rcases orRaise_next h with ⟨n, -, h⟩ | ⟨e, -, h⟩
    · exact .inr (.inl ⟨_, done_next h, by simp [Instr.opcode]⟩)
    · exact .inl ⟨e, h⟩
  | mwr a v =>
    obtain ⟨m, hm, h⟩ := withAm_next h
    rcases orRaise_next h with ⟨n, hn, h⟩ | ⟨e, -, h⟩
    · obtain ⟨rfl, hb, he⟩ := address_eq_ok hn
      refine .inr (.inr (.inr (.inl ⟨m, a.toNat, [v], hm, hb, ?_, done_next h, by simp [Instr.opcode]⟩)))
      simp only [List.length_singleton]
      omega
    · exact .inl ⟨e, h⟩
  | mfill v sp =>
    obtain ⟨m, hm, h⟩ := withAm_next h
    rcases orRaise_next h with ⟨r, hr, h⟩ | ⟨e, -, h⟩
    · obtain ⟨rfl, h1, h2, h3, h4⟩ := spanCheck_eq_ok hr
      refine .inr (.inr (.inr (.inl ⟨m, _, _, hm, h3, ?_, done_next h, by simp [Instr.opcode]⟩)))
      simp only [List.length_replicate]
      omega
    · exact .inl ⟨e, h⟩
  | mdump sp =>
    obtain ⟨m, hm, h⟩ := withAm_next h
    rcases orRaise_next h with ⟨r, hr, h⟩ | ⟨e, -, h⟩
    · exact .inr (.inr (.inr (.inr (.inl ⟨_, _, done_next h, by simp [Instr.opcode]⟩))))
    · exact .inl ⟨e, h⟩
  | msave g sp =>
    obtain ⟨m, hm, h⟩ := withAm_next h
    rcases orRaise_next h with ⟨r, hr, h⟩ | ⟨e, -, h⟩
    · rcases orRaise_next h with ⟨u, hu, h⟩ | ⟨e, -, h⟩
      · exact .inr (.inr (.inr (.inr (.inr ⟨g, sp, _, rfl, freshFile_eq_ok hu, done_next h⟩))))
      · exact .inl ⟨e, h⟩
    · exact .inl ⟨e, h⟩
  | mload g =>
    obtain ⟨m, hm, h⟩ := withAm_next h
    rcases orRaise_next h with ⟨bytes, hb, h⟩ | ⟨e, -, h⟩
    · obtain ⟨-, hl⟩ := imageFile_eq_ok hb
      refine .inr (.inr (.inr (.inl ⟨m, m.base.toNat, bytes, hm, Nat.le_refl _, ?_, done_next h,
        by simp [Instr.opcode]⟩)))
      simp only [Am.last]
      omega
    · exact .inl ⟨e, h⟩
  | mbegin =>
    obtain ⟨m, hm, h⟩ := withAm_next h
    exact .inr (.inl ⟨_, done_next h, by simp [Instr.opcode]⟩)
  | mend =>
    obtain ⟨m, hm, h⟩ := withAm_next h
    exact .inr (.inl ⟨_, done_next h, by simp [Instr.opcode]⟩)
  | msize =>
    obtain ⟨m, hm, h⟩ := withAm_next h
    exact .inr (.inl ⟨_, done_next h, by simp [Instr.opcode]⟩)

end Sys2Proof.Machine
end

