-- ==== Sys2Proof/Laws/PerInstr.lean ====
section
/-! SUPPORT. Facts about every command as syntax, one lemma per constructor. -/

namespace Sys2Proof.Laws.TableRow

/-- The word of a command lies in the command's own row of the opcode table: OP is the row's and RSV is zero
(30_encoding.md R72, R74). -/
def Statement (i : Instr) : Prop :=
  Opcode.ofBits (fieldOp (encode i)) = some i.opcode ∧ fieldRsv (encode i) = 0

theorem rrdb (o : Half) : Statement (.rrdb o) := by
  simp [Statement, encode, Instr.opcode]

theorem rwrb (o : Half) (v : Byte) : Statement (.rwrb o v) := by
  simp [Statement, encode, Instr.opcode]

theorem rrdw (o : Half) : Statement (.rrdw o) := by
  simp [Statement, encode, Instr.opcode]

theorem rwrw (o : Half) (v : Half) : Statement (.rwrw o v) := by
  simp [Statement, encode, Instr.opcode]

theorem rgetf (f : Flag) : Statement (.rgetf f) := by
  simp [Statement, encode, Instr.opcode]

theorem rsetf (f : Flag) : Statement (.rsetf f) := by
  simp [Statement, encode, Instr.opcode]

theorem rclrf (f : Flag) : Statement (.rclrf f) := by
  simp [Statement, encode, Instr.opcode]

theorem rdumpf : Statement .rdumpf := by
  simp [Statement, encode, Instr.opcode]

theorem mrd (a : Half) : Statement (.mrd a) := by
  simp [Statement, encode, Instr.opcode]

theorem mwr (a : Half) (v : Byte) : Statement (.mwr a v) := by
  simp [Statement, encode, Instr.opcode]

theorem mfill (v : Byte) (sp : Span) : Statement (.mfill v sp) := by
  simp [Statement, encode, Instr.opcode]

theorem mdump (sp : Span) : Statement (.mdump sp) := by
  simp [Statement, encode, Instr.opcode]

theorem msave (h : Half) (sp : Span) : Statement (.msave h sp) := by
  simp [Statement, encode, Instr.opcode]

theorem mload (h : Half) : Statement (.mload h) := by
  simp [Statement, encode, Instr.opcode]

theorem mbegin : Statement .mbegin := by
  simp [Statement, encode, Instr.opcode]

theorem mend : Statement .mend := by
  simp [Statement, encode, Instr.opcode]

theorem msize : Statement .msize := by
  simp [Statement, encode, Instr.opcode]

end Sys2Proof.Laws.TableRow
end

