-- ==== Sys2Proof/Laws/Step.lean ====
section
/-! SUPPORT. What a step can do, said once: which waiting request it takes and what then waits, and what performing a
request can do. -/

namespace Sys2Proof.Machine

/-- The oldest of the requests left is taken where it has a step and none of its agent's waits before it. -/
theorem takeFirst_takes {s t : State} {passed rest : List Request} {r : Request}
    (ha : r.agent ∉ passed.map Request.agent) (h : perform r { s with inbox := passed ++ rest } = .next t) :
    takeFirst s passed (r :: rest) = some t := by
  simp only [takeFirst, if_neg ha, h]

/-- A request behind one of its own agent's is passed over. -/
theorem takeFirst_behind {s : State} {passed rest : List Request} {r : Request}
    (ha : r.agent ∈ passed.map Request.agent) :
    takeFirst s passed (r :: rest) = takeFirst s (passed ++ [r]) rest := by
  simp only [takeFirst, if_pos ha]

/-- A request without a step is passed over. -/
theorem takeFirst_stuck {s : State} {passed rest : List Request} {r : Request} {f : Fault}
    (h : perform r { s with inbox := passed ++ rest } = .fault f) :
    takeFirst s passed (r :: rest) = takeFirst s (passed ++ [r]) rest := by
  simp only [takeFirst, h, ite_self]

/-- Every state that taking a request gives is that of performing one of those waiting: none of its agent's waits
before it, and the others go on waiting in their order. -/
theorem takeFirst_some {s t : State} {passed l : List Request} (h : takeFirst s passed l = some t) :
    ∃ pre r rest, l = pre ++ r :: rest ∧ r.agent ∉ (passed ++ pre).map Request.agent ∧
      perform r { s with inbox := passed ++ pre ++ rest } = .next t := by
  induction l generalizing passed with
  | nil => simp [takeFirst] at h
  | cons q l ih =>
    have later (h : takeFirst s (passed ++ [q]) l = some t) : ∃ pre r rest, q :: l = pre ++ r :: rest ∧
        r.agent ∉ (passed ++ pre).map Request.agent ∧
        perform r { s with inbox := passed ++ pre ++ rest } = .next t := by
      obtain ⟨pre, r, rest, rfl, ha, hp⟩ := ih h
      exact ⟨q :: pre, r, rest, rfl, by simpa using ha, by simpa using hp⟩
    by_cases ha : q.agent ∈ passed.map Request.agent
    · exact later (takeFirst_behind ha ▸ h)
    · simp only [takeFirst, if_neg ha] at h
      split at h
      · cases h
        exact ⟨[], q, l, rfl, by simpa using ha, by simpa⟩
      · exact later h
      · exact later h

/-- Where no request is taken, each stands behind one of its own agent or gives no next state. -/
theorem takeFirst_none {s : State} {passed l pre rest : List Request} {q : Request} (h : takeFirst s passed l = none)
    (e : l = pre ++ q :: rest) :
    q.agent ∈ (passed ++ pre).map Request.agent ∨
      ∀ t, perform q { s with inbox := passed ++ pre ++ rest } ≠ .next t := by
  subst e
  induction pre generalizing passed with
  | nil =>
    by_cases ha : q.agent ∈ passed.map Request.agent
    · exact .inl (by simpa using ha)
    · refine .inr fun t ht => ?_
      rw [List.nil_append, takeFirst_takes ha (by simpa using ht)] at h
      cases h
  | cons p pre ih =>
    have later (h : takeFirst s (passed ++ [p]) (pre ++ q :: rest) = none) :
        q.agent ∈ (passed ++ p :: pre).map Request.agent ∨
          ∀ t, perform q { s with inbox := passed ++ p :: pre ++ rest } ≠ .next t := by simpa using ih h
    by_cases ha : p.agent ∈ passed.map Request.agent
    · exact later (takeFirst_behind ha ▸ h)
    · simp only [List.cons_append, takeFirst, if_neg ha] at h
      split at h
      · cases h
      · exact later h
      · exact later h

/-- A step that answers a next state had nothing to do, or performed one waiting request, none of whose agent's was
older, and left the others waiting in their order. -/
theorem step_next {s t : State} (h : step s = .next t) :
    (s.inbox = [] ∧ t = s) ∨
    ∃ pre r rest, s.inbox = pre ++ r :: rest ∧ r.agent ∉ pre.map Request.agent ∧
      perform r { s with inbox := pre ++ rest } = .next t := by
  unfold step at h
  split at h
  · cases h
    exact .inl ⟨‹_›, rfl⟩
  · rename_i r rest hi
    split at h
    · cases h
      obtain ⟨pre, q, l, e, ha, hp⟩ := takeFirst_some ‹_›
      exact .inr ⟨pre, q, l, hi.trans e, ha, hp⟩
    · exact .inr ⟨[], r, rest, hi, by simp, h⟩

/-- The oldest request is performed where it has a step. -/
theorem step_oldest {s t : State} {r : Request} {rest : List Request} (hi : s.inbox = r :: rest)
    (h : perform r { s with inbox := rest } = .next t) : step s = .next t := by
  simp only [step, hi]
  rw [takeFirst_takes (by simp) h]

/-- What a construction that succeeds leaves in the cells fits its mode (70_reset_and_hazards.md R182 to R184). -/
theorem construct_ok {init : MemInit} {cap : Nat} {s : State} {c : Contents} (hw : init.wellFormed = true)
    (h : construct init cap s = .ok c) : c.Ok cap := by
  cases init with
  | fill v => cases h; trivial
  | random lo hi => cases h; simpa [MemInit.wellFormed] using hw
  | image g =>
    simp only [construct] at h
    split at h
    · cases h
      exact (imageFile_eq_ok ‹_›).2
    · cases h

/-- The AM unit that a construction makes is well-formed. -/
theorem construct_am_ok {cfg : AmConfig} {s : State} {c : Contents} (hw : cfg.wellFormed = true)
    (h : construct cfg.init cfg.cap s = .ok c) :
    Am.Ok { base := cfg.base, cap := cfg.cap, mem := { contents := c, cells := [] } } := by
  simp only [AmConfig.wellFormed, Bool.and_eq_true, decide_eq_true_eq] at hw
  exact ⟨hw.1.1, hw.1.2, Memory.nil_wf _ _, construct_ok hw.2 h⟩

/-- A request that ends in a next state is: a command word of the owner, which runs or is illegal; a construction at
a free port, which makes an instance or reports why not; the owner's destruction or hand over; or a change of a
file. -/
theorem perform_next {r : Request} {s t : State} (h : perform r s = .next t) :
    (∃ port w b, r = .command b.owner port w ∧ Table.lookup port s.blocks = some b ∧
      ((∃ i, decode w = .ok i ∧ exec i { s with port := port } = .next t) ∨
       (∃ e, decode w = .error e ∧ t = State.reply { s with port := port } (.error (.illegalCommand w))))) ∨
    (∃ agent port cfg, r = .constructAm agent port cfg ∧ Table.lookup port s.blocks = none ∧
      ((∃ c, cfg.wellFormed = true ∧ construct cfg.init cfg.cap s = .ok c ∧
          t = (s.putBlock port
            { owner := agent
              store := .am { base := cfg.base, cap := cfg.cap, mem := { contents := c, cells := [] } }
              response := none }).constructed) ∨
       (∃ e, cfg.wellFormed = true ∧ construct cfg.init cfg.cap s = .error e ∧
          t = { s with launch := some (.failed e) }) ∨
       (cfg.wellFormed = false ∧ t = { s with launch := some .configRefused }))) ∨
    (∃ agent port, r = .constructRf agent port ∧ Table.lookup port s.blocks = none ∧
      t = (s.putBlock port { owner := agent, store := .rf (Rf.construct s.draws), response := none }).constructed) ∨
    (∃ port b, r = .destroy b.owner port ∧ Table.lookup port s.blocks = some b ∧
      t = { s with blocks := Table.erase port s.blocks }) ∨
    (∃ port new b, r = .handOver b.owner port new ∧ Table.lookup port s.blocks = some b ∧
      t = s.putBlock port { b with owner := new }) ∨
    (∃ g bytes, r = .hostFile g (some bytes) ∧ t = s.setFile g bytes) ∨
    (∃ g, r = .hostFile g none ∧ t = { s with files := Table.erase g.toNat s.files }) := by
  cases r with
  | command agent port w =>
    obtain ⟨b, hb, rfl, k⟩ := asOwner_next h
    refine .inl ⟨port, w, b, rfl, hb, ?_⟩
    split at k
    · exact .inl ⟨_, ‹_›, k⟩
    · exact .inr ⟨_, ‹_›, raise_next k⟩
  | constructAm agent port cfg =>
    obtain ⟨hn, k⟩ := atFreePort_next h
    refine .inr (.inl ⟨agent, port, cfg, rfl, hn, ?_⟩)
    split at k
    · split at k <;> cases k
      · exact .inl ⟨_, ‹_›, ‹_›, rfl⟩
      · exact .inr (.inl ⟨_, ‹_›, ‹_›, rfl⟩)
    · rename_i hw
      cases k
      exact .inr (.inr ⟨by simpa using hw, rfl⟩)
  | constructRf agent port =>
    obtain ⟨hn, k⟩ := atFreePort_next h
    cases k
    exact .inr (.inr (.inl ⟨agent, port, rfl, hn, rfl⟩))
  | destroy agent port =>
    obtain ⟨b, hb, rfl, k⟩ := asOwner_next h
    cases k
    exact .inr (.inr (.inr (.inl ⟨port, b, rfl, hb, rfl⟩)))
  | handOver agent port new =>
    obtain ⟨b, hb, rfl, k⟩ := asOwner_next h
    cases k
    exact .inr (.inr (.inr (.inr (.inl ⟨port, new, b, rfl, hb, rfl⟩))))
  | hostFile g content =>
    cases content with
    | some bytes =>
      cases h
      exact .inr (.inr (.inr (.inr (.inr (.inl ⟨g, bytes, rfl, rfl⟩)))))
    | none =>
      cases h
      exact .inr (.inr (.inr (.inr (.inr (.inr ⟨g, rfl, rfl⟩)))))

end Sys2Proof.Machine
end

