-- ==== Sys2Proof/Tests/Slice0.lean ====
section
/-! SUPPORT. The model's own tests: decoding of words written out from the spec, the refusals of WellFormed, single
steps of every command against 95_test_vectors.md, and for each obligation a state and operands that meet its
hypotheses. -/

namespace Sys2Proof.Tests

open Sys2Proof.Machine

/-! ### Small states -/

/-- An AM filled with 0 that holds `cells`. -/
def amOf (base : Half) (cap : Nat) (cells : List Host.Cell) : Am :=
  { base := base, cap := cap, mem := { contents := .filled 0, cells := cells } }

/-- The RF of V-RF-BYTE: `x[i] = 0x10 + i`. -/
def rfRow : Rf := { bytes := Vector.ofFn fun i => BitVec.ofNat 8 (0x10 + i) }

/-- That RF with another F byte. -/
def rfWithF (f : Byte) : Rf := rfRow.setByte 1 f

/-- An AM instance and an RF instance of agent 0, with no response yet. -/
def amBlock (m : Am) : Block := ⟨0, .am m, none⟩
def rfBlock (x : Rf) : Block := ⟨0, .rf x, none⟩

/-- A state with the given instances, current port 0 and the given files. -/
def stateOf (blocks : List (Nat × Block)) (files : List (Nat × List Byte)) : State :=
  { blocks := blocks, port := 0, files := files, out := [], inbox := [], draws := 0, launch := none }

/-- A state with one instance, at port 0. -/
def amState (m : Am) : State := stateOf [(0, amBlock m)] []
def rfState (x : Rf) : State := stateOf [(0, rfBlock x)] []

/-- The STATUS and RDATA a step answers. -/
def answer : Result → Option (BitVec 4 × RData)
  | .next t => t.response.map fun r => (r.status, r.rdata)
  | _ => none

/-- What a step leaves, read by `f`. -/
def after {α : Type} (f : State → Option α) : Result → Option α
  | .next t => f t
  | _ => none

/-- RF byte `o` after a step. -/
def rfByte (o : Fin 26) : Result → Option Byte := after fun t => t.rf.map (Rf.byte · o)

/-- AM cell `i` after a step. -/
def cell (i : Nat) : Result → Option Byte := after fun t => t.am.map fun m => m.mem.read i

/-- The text after a step. -/
def textOf : Result → Option (List Char) := after fun t => some t.out

/-- Agent 0 presents a word at port 0. -/
def present (w : CmdWord) (s : State) : Result := command 0 0 w s

/-! ### Decoding: one word a command, from 30_encoding.md R84 and 95_test_vectors.md -/

theorem test_decode_rrdb : decode 0x0000001900000000 = .ok (.rrdb 25) := rfl
theorem test_decode_rwrb : decode 0x0800000200000043 = .ok (.rwrb 2 0x43) := rfl
theorem test_decode_rrdw : decode 0x1000000200000000 = .ok (.rrdw 2) := rfl
theorem test_decode_rwrw : decode 0x1800000600001234 = .ok (.rwrw 6 0x1234) := rfl
theorem test_decode_rgetf : decode 0x2200000000000000 = .ok (.rgetf .pv) := rfl
theorem test_decode_rsetf : decode 0x2E00000000000000 = .ok (.rsetf .z) := rfl
theorem test_decode_rclrf : decode 0x3400000000000000 = .ok (.rclrf .h) := rfl
theorem test_decode_rdumpf : decode 0x3800000000000000 = .ok .rdumpf := rfl
theorem test_decode_mrd : decode 0x800010FF00000000 = .ok (.mrd 0x10FF) := rfl
theorem test_decode_mwr : decode 0x8800101000000041 = .ok (.mwr 0x1010 0x41) := rfl
theorem test_decode_mfill : decode 0x90801000100300AA = .ok (.mfill 0xAA (.range 0x1000 0x1003)) := rfl
theorem test_decode_mfill_whole : decode 0x900000000000005A = .ok (.mfill 0x5A .whole) := rfl
theorem test_decode_mdump : decode 0x98801000101F0000 = .ok (.mdump (.range 0x1000 0x101F)) := rfl
theorem test_decode_mdump_whole : decode 0x9800000000000000 = .ok (.mdump .whole) := rfl
theorem test_decode_msave : decode 0xA080010101020008 = .ok (.msave 8 (.range 0x0101 0x0102)) := rfl
theorem test_decode_msave_whole : decode 0xA000000000000009 = .ok (.msave 9 .whole) := rfl
theorem test_decode_mload : decode 0xA800000000000001 = .ok (.mload 1) := rfl
theorem test_decode_mbegin : decode 0xB000000000000000 = .ok .mbegin := rfl
theorem test_decode_mend : decode 0xB800000000000000 = .ok .mend := rfl
theorem test_decode_msize : decode 0xC000000000000000 = .ok .msize := rfl

/-- V-DEC: the first and last words of both reserved OP ranges. -/
theorem test_decode_reserved_op :
    decode 0x4000000000000000 = .error .reservedOp ∧ decode 0x7800000000000000 = .error .reservedOp ∧
    decode 0xC800000000000000 = .error .reservedOp ∧ decode 0xF800000000000000 = .error .reservedOp :=
  ⟨rfl, rfl, rfl, rfl⟩

/-- V-DEC: RRDB with RSV = 1. -/
theorem test_decode_reserved_bits : decode 0x0001000000000000 = .error .reservedBits := rfl

/-- V-RF-FLAG: FSEL 3 and 5. -/
theorem test_decode_no_flag :
    decode 0x2300000000000000 = .error .noSuchFlag ∧ decode 0x2B00000000000000 = .error .noSuchFlag ∧
    decode 0x2500000000000000 = .error .noSuchFlag ∧ decode 0x2D00000000000000 = .error .noSuchFlag :=
  ⟨rfl, rfl, rfl, rfl⟩

/-- V-DEC: RRDB 0 with every ignored field set. -/
theorem test_decode_ignored_fields : decode 0x03800000FFFFFFFF = .ok (.rrdb 0) := rfl

/-! ### WellFormed: an ill-formed term for each check (30_encoding.md R82; 00_scope.md R8; R182) -/

theorem test_wf_offset : (AsmLine.rrdb 0xFFFF).wellFormed = true ∧ (AsmLine.rrdb 0x10000).wellFormed = false ∧
    (AsmLine.rrdw 0x10000).wellFormed = false := by decide
theorem test_wf_byte_write : (AsmLine.rwrb 25 0xFF).wellFormed = true ∧ (AsmLine.rwrb 25 0x100).wellFormed = false ∧
    (AsmLine.rwrb 0x10000 0).wellFormed = false := by decide
theorem test_wf_word_write : (AsmLine.rwrw 6 0xFFFF).wellFormed = true ∧
    (AsmLine.rwrw 6 0x10000).wellFormed = false ∧ (AsmLine.rwrw 0x10000 0).wellFormed = false := by decide
theorem test_wf_address : (AsmLine.mrd 0x10000).wellFormed = false ∧ (AsmLine.mwr 0x10000 0).wellFormed = false ∧
    (AsmLine.mwr 0 0x100).wellFormed = false ∧ (AsmLine.mwr 0xFFFF 0xFF).wellFormed = true := by decide
theorem test_wf_span : (AsmLine.mfill 0x100 none).wellFormed = false ∧
    (AsmLine.mfill 0 (some (0x10000, 0))).wellFormed = false ∧
    (AsmLine.mdump (some (0, 0x10000))).wellFormed = false ∧
    (AsmLine.mdump (some (0, 0xFFFF))).wellFormed = true := by decide
theorem test_wf_handle : (AsmLine.msave 0x10000 none).wellFormed = false ∧
    (AsmLine.msave 0 (some (0x10000, 0))).wellFormed = false ∧ (AsmLine.mload 0x10000).wellFormed = false ∧
    (AsmLine.mload 0xFFFF).wellFormed = true := by decide
theorem test_wf_put : (AsmLine.putByte .a 0x100).wellFormed = false ∧
    (AsmLine.putWord .hl 0x10000).wellFormed = false ∧ (AsmLine.putWord .hl 0x8006).wellFormed = true := by decide
/-- V-AM-ACC: BASE 0xFF00, CAP 0x101 is refused; BASE 0, CAP 0x10000 is not. -/
theorem test_wf_window : (AmConfig.mk 0xFF00 0x101 (.fill 0)).wellFormed = false ∧
    (AmConfig.mk 0xFF00 0x100 (.fill 0)).wellFormed = true ∧ (AmConfig.mk 0 0x10000 (.fill 0)).wellFormed = true ∧
    (AmConfig.mk 0 0x10001 (.fill 0)).wellFormed = false := by decide
theorem test_wf_capacity : (AmConfig.mk 0x1000 0 (.fill 0)).wellFormed = false := by decide
theorem test_wf_random : (AmConfig.mk 0 1 (.random 6 5)).wellFormed = false ∧
    (AmConfig.mk 0 1 (.random 5 5)).wellFormed = true := by decide

/-- R25, R26: the layout, and one with C not next to B, and one with I where A is. -/
theorem test_wf_layout : Config.regLayout.wellFormed = true ∧
    { Config.regLayout with c := 4, d := 3 }.wellFormed = false ∧
    { Config.regLayout with i := 0 }.wellFormed = false := by decide

/-! ### The Register File commands, one step each (V-RF-BYTE, V-RF-WORD, V-RF-FLAG, W9) -/

theorem test_rrdb_last : answer (present 0x0000001900000000 (rfState rfRow)) = some (0, 0x29) := by decide
theorem test_rrdb_out : answer (present 0x0000001A00000000 (rfState rfRow)) = some (1, 0) := by decide
theorem test_rwrb_high_byte_ignored : rfByte 4 (present 0x080000040000FF80 (rfState rfRow)) = some 0x80 ∧
    rfByte 5 (present 0x080000040000FF80 (rfState rfRow)) = some 0x15 := by decide
theorem test_rwrb_out : answer (present 0x0800001A00000001 (rfState rfRow)) = some (1, 0) := by decide
theorem test_rrdw_odd : answer (present 0x1000000100000000 (rfState rfRow)) = some (0, 0x1211) := by decide
theorem test_rrdw_edges : answer (present 0x1000001800000000 (rfState rfRow)) = some (0, 0x2928) ∧
    answer (present 0x1000001900000000 (rfState rfRow)) = some (1, 0) ∧
    answer (present 0x1000FFFF00000000 (rfState rfRow)) = some (1, 0) := by decide
theorem test_rwrw_low_first : rfByte 6 (present 0x1800000600001234 (rfState rfRow)) = some 0x34 ∧
    rfByte 7 (present 0x1800000600001234 (rfState rfRow)) = some 0x12 := by decide
theorem test_rwrw_out : answer (present 0x180000190000BEEF (rfState rfRow)) = some (1, 0) ∧
    rfByte 25 (present 0x180000190000BEEF (rfState rfRow)) = some 0x29 := by decide
theorem test_rgetf_set : answer (present 0x2600000000000000 (rfState (rfWithF 0x41))) = some (0, 1) := by decide
theorem test_rgetf_clear : answer (present 0x2200000000000000 (rfState (rfWithF 0x41))) = some (0, 0) := by decide
theorem test_rsetf_h : rfByte 1 (present 0x2C00000000000000 (rfState (rfWithF 0x41))) = some 0x51 := by decide
theorem test_rsetf_keeps_f' : rfByte 9 (present 0x2F00000000000000 (rfState (rfWithF 0x28))) = some 0x19 := by decide
theorem test_rclrf_h : rfByte 1 (present 0x3400000000000000 (rfState (rfWithF 0x51))) = some 0x41 := by decide
theorem test_rclrf_clear : rfByte 1 (present 0x3000000000000000 (rfState (rfWithF 0x28))) = some 0x28 := by decide
theorem test_rdumpf_rdata : answer (present 0x3800000000000000 (rfState (rfWithF 0x41))) = some (0, 0x41) := by decide
theorem test_rdumpf_digits :
    (textOf (present 0x3800000000000000 (rfState (rfWithF 0x41)))).map (List.take 9) = some "01000001\n".toList := by
  decide

/-! ### The Addressed Memory commands, one step each (V-AM-IDX, V-AM-FILL, V-AM-DUMP, V-AM-FILE, V-AM-ACC) -/

/-- V-AM-IDX: BASE 0x1000, CAP 256, mem[0] = 0x11, mem[255] = 0x80. -/
def idxState : State := amState (amOf 0x1000 256 [(0, 0x11), (255, 0x80)])

theorem test_mrd_last : answer (present 0x800010FF00000000 idxState) = some (0, 0x80) := by decide
theorem test_mrd_out : answer (present 0x80000FFF00000000 idxState) = some (1, 0) ∧
    answer (present 0x8000110000000000 idxState) = some (1, 0) := by decide
theorem test_mwr_high_byte_ignored : cell 1 (present 0x8800100100001234 idxState) = some 0x34 ∧
    cell 0 (present 0x8800100100001234 idxState) = some 0x11 := by decide
theorem test_mwr_out : answer (present 0x8800110000000055 idxState) = some (1, 0) := by decide

theorem test_mfill_span : cell 3 (present 0x90801000100300AA idxState) = some 0xAA ∧
    cell 4 (present 0x90801000100300AA idxState) = some 0 := by decide
/-- The four failing spans of V-AM-FILL, in the order of the checks. -/
theorem test_mfill_errors : answer (present 0x9080100011000001 idxState) = some (2, 0) ∧
    answer (present 0x9080100310020001 idxState) = some (2, 0) ∧
    answer (present 0x90800FFF10FE0001 idxState) = some (1, 0) ∧
    answer (present 0x90800F0011000001 idxState) = some (2, 0) := by decide

/-- V-AM-DUMP start A: BASE 0x0040, CAP 5. -/
def dumpState : State := amState (amOf 0x40 5 [(0, 0x1F), (1, 0x20), (2, 0x7E), (3, 0x7F), (4, 0x80)])

theorem test_mdump_whole :
    textOf (present 0x9800000000000000 dumpState) = some "$0040 1F 20 7E 7F 80 | . ~.. |\n".toList := by decide
/-- The bytes of V-AM-DUMP start B from 0x33 on, at CAP 18: a line of 16 bytes and a short one. -/
theorem test_mdump_lines :
    textOf (present 0x9880100010110000
      (amState (amOf 0x1000 18 ((List.range 18).map fun i => (i, BitVec.ofNat 8 (0x33 + i)))))) =
    some ("$1000 33 34 35 36 37 38 39 3A 3B 3C 3D 3E 3F 40 41 42 | 3456789:;<=>?@AB |\n".toList ++
      "$1010 43 44 | CD |\n".toList) := by decide

/-- V-AM-FILE: BASE 0x0100, CAP 4, mem = [1, 2, 3, 4]. -/
def fileState : State :=
  stateOf [(0, amBlock (amOf 0x100 4 [(0, 1), (1, 2), (2, 3), (3, 4)]))]
    [(5, [0xA, 0xB, 0xC, 0xD]), (6, [5, 6, 7, 8, 9]), (9, [])]

theorem test_msave_span : after (fun t => t.file 8) (present 0xA080010101020008 fileState) = some [2, 3] := by decide
theorem test_msave_errors : answer (present 0xA000000000000009 fileState) = some (5, 0) ∧
    answer (present 0xA080010001050009 fileState) = some (2, 0) := by decide
theorem test_mload : cell 0 (present 0xA800000000000005 fileState) = some 0xA ∧
    cell 3 (present 0xA800000000000005 fileState) = some 0xD := by decide
theorem test_mload_errors : answer (present 0xA800000000000007 fileState) = some (3, 0) ∧
    answer (present 0xA800000000000009 fileState) = some (4, 0) ∧
    answer (present 0xA800000000000006 fileState) = some (4, 0) := by decide
theorem test_mbegin : answer (present 0xB000000000000000 (amState (amOf 0x1234 1 []))) = some (0, 0x1234) := by decide
theorem test_mend : answer (present 0xB800000000000000 (amState (amOf 0x1234 1 []))) = some (0, 0x1234) ∧
    answer (present 0xB800000000000000 (amState (amOf 0 0x10000 []))) = some (0, 0xFFFF) := by decide
theorem test_msize : answer (present 0xC000000000000000 (amState (amOf 0 0x10000 []))) = some (0, 0x10000) := by decide

/-- V-DEC: an illegal word answers STATUS 6. -/
theorem test_illegal : answer (present 0x4000000000000000 idxState) = some (6, 0) := by decide

/-! ### Construction, and a word placed for the next step -/

/-- W3's property, at CAP 4: an image one byte short fails with SizeMismatch, and no instance exists. -/
theorem test_image_mismatch :
    after (fun t => some (t.blocks.map Prod.fst, t.launch))
      (constructAm 0 0 (AmConfig.mk 0x1000 4 (.image 1)) (State.mk [] 0 [(1, [9, 9, 9])] [] [] 0 none)) =
      some ([], some (.failed (.sizeMismatch 3))) := by decide

/-- W7: construction from the saved image. -/
theorem test_image_construct :
    cell 2 (constructAm 0 0 (AmConfig.mk 0x100 4 (.image 5)) (State.mk [] 0 [(5, [1, 2, 3, 4])] [] [] 0 none)) =
      some 3 := by decide

/-- The word W1's MWR runs as the first step after reset, at the AM's port. -/
theorem test_reset_runs : cell 0x10 (step (State.reset.withFetchWord 64 0x8800101000000041)) = some 0x41 ∧
    cell 0x11 (step (State.reset.withFetchWord 64 0x8800101000000041)) = some 0 := by decide

/-- The word RWRB 2, 0x43 of R84 runs as the first step after reset, at the RF's port. -/
theorem test_reset_runs_rf : rfByte 2 (step (State.reset.withFetchWord 64 0x0800000200000043)) = some 0x43 := by
  decide

/-! ### Instances of their own (60_exceptions.md R171; 20_memory.md R63, R66) -/

/-- Two AM instances with the same window and different owners, and an RF of a third agent. -/
def threeState : State :=
  stateOf [(0, amBlock (amOf 0x1000 4 [])), (1, ⟨1, .am (amOf 0x1000 4 []), none⟩), (2, ⟨2, .rf rfRow, none⟩)] []

/-- A write to one AM is not seen through the other; the RF is handed over alone. -/
theorem test_own_storage :
    after (fun t => (Table.lookup 0 t.blocks).bind Block.am) (command 1 1 0x8800100100000041 threeState) =
      some (amOf 0x1000 4 []) ∧ cell 1 (command 1 1 0x8800100100000041 threeState) = some 0x41 ∧
    after (fun t => some (t.blocks.map fun p => p.2.owner)) (handOver 2 2 7 threeState) = some [0, 1, 7] := by decide

/-- R63, R171: the word of agent 1 at agent 0's port waits, and agent 2's RRDB 25 at port 2 goes on. -/
theorem test_stuck_waits :
    answer (step { threeState with inbox := [.command 1 0 0xC000000000000000, .command 2 2 0x0000001900000000] }) =
      some (0, 0x29) ∧
    after (fun t => some t.inbox)
      (step { threeState with inbox := [.command 1 0 0xC000000000000000, .command 2 2 0x0000001900000000] }) =
      some [.command 1 0 0xC000000000000000] := by decide

/-! ### The assembler (30_encoding.md R82, R83, R84; 95_test_vectors.md P2, P4) -/

theorem test_asm_rwrb : assembleText "RWRB 2, 0x43 ; B".toList = some 0x0800000200000043 := by decide
theorem test_asm_mdump : assembleText "MDUMP 0x1000, 0x101F".toList = some 0x98801000101F0000 := by decide
theorem test_asm_mfill : assembleText "MFILL 0x5A".toList = some 0x900000000000005A := by decide
theorem test_asm_flag : assembleText "RSETF PV".toList = some 0x2A00000000000000 := by decide
theorem test_asm_put : assembleText "PUT HL, 0x8006".toList = some 0x1800000600008006 := by decide
theorem test_asm_get : assembleText "GET C".toList = some 0x0000000300000000 ∧
    assembleText "GET AF'".toList = some 0x1000000800000000 := by decide
theorem test_asm_refused : assembleText "RWRB 2, 0x100".toList = none ∧ assembleText "GET IXH".toList = none := by
  decide

/-! ### Witnesses: for each obligation, a state and operands that meet its hypotheses, clause by clause -/

/-- An RF word and an AM word with RSV = 0, at the largest values of the fields. -/
theorem witness_command_words :
    (fieldOp 0x0000FFFF00000000 = 0x00 ∧ fieldRsv 0x0000FFFF00000000 = 0) ∧
    (fieldOp 0x0800FFFF0000FFFF = 0x01 ∧ fieldRsv 0x0800FFFF0000FFFF = 0) ∧
    (fieldOp 0x1000FFFF00000000 = 0x02 ∧ fieldRsv 0x1000FFFF00000000 = 0) ∧
    (fieldOp 0x1800FFFF0000FFFF = 0x03 ∧ fieldRsv 0x1800FFFF0000FFFF = 0) ∧
    (fieldOp 0x3800000000000000 = 0x07 ∧ fieldRsv 0x3800000000000000 = 0) ∧
    (fieldOp 0x8000FFFF00000000 = 0x10 ∧ fieldRsv 0x8000FFFF00000000 = 0) ∧
    (fieldOp 0x8800FFFF00000000 = 0x11 ∧ fieldRsv 0x8800FFFF00000000 = 0) ∧
    (fieldOp 0xA80000000000FFFF = 0x15 ∧ fieldRsv 0xA80000000000FFFF = 0) ∧
    (fieldOp 0xB000000000000000 = 0x16 ∧ fieldRsv 0xB000000000000000 = 0) ∧
    (fieldOp 0xB800000000000000 = 0x17 ∧ fieldRsv 0xB800000000000000 = 0) ∧
    (fieldOp 0xC000000000000000 = 0x18 ∧ fieldRsv 0xC000000000000000 = 0) := by decide

/-- Span commands with RNG = 1 and RNG = 0. -/
theorem witness_span_words :
    (fieldOp 0x908000000000FFFF = 0x12 ∧ fieldRsv 0x908000000000FFFF = 0 ∧ fieldRng 0x908000000000FFFF = 1) ∧
    (fieldOp 0x9000FFFFFFFF0000 = 0x12 ∧ fieldRsv 0x9000FFFFFFFF0000 = 0 ∧ fieldRng 0x9000FFFFFFFF0000 = 0) ∧
    (fieldOp 0x98800000FFFF0000 = 0x13 ∧ fieldRsv 0x98800000FFFF0000 = 0 ∧ fieldRng 0x98800000FFFF0000 = 1) ∧
    (fieldOp 0x9800000000000000 = 0x13 ∧ fieldRsv 0x9800000000000000 = 0 ∧ fieldRng 0x9800000000000000 = 0) ∧
    (fieldOp 0xA08000000000FFFF = 0x14 ∧ fieldRsv 0xA08000000000FFFF = 0 ∧ fieldRng 0xA08000000000FFFF = 1) ∧
    (fieldOp 0xA000000000000000 = 0x14 ∧ fieldRsv 0xA000000000000000 = 0 ∧ fieldRng 0xA000000000000000 = 0) := by
  decide

/-- Flag commands with FSEL of a flag, and with FSEL 3 and 5. -/
theorem witness_flag_words :
    (fieldOp 0x2700000000000000 = 0x04 ∧ fieldRsv 0x2700000000000000 = 0 ∧ fieldFsel 0x2700000000000000 = Flag.s.fsel) ∧
    (fieldOp 0x2800000000000000 = 0x05 ∧ fieldRsv 0x2800000000000000 = 0 ∧ fieldFsel 0x2800000000000000 = Flag.c.fsel) ∧
    (fieldOp 0x3400000000000000 = 0x06 ∧ fieldRsv 0x3400000000000000 = 0 ∧ fieldFsel 0x3400000000000000 = Flag.h.fsel) ∧
    (fieldOp 0x2300000000000000 = 0x04 ∧ fieldFsel 0x2300000000000000 = 3) ∧
    (fieldOp 0x2D00000000000000 = 0x05 ∧ fieldFsel 0x2D00000000000000 = 5) ∧
    (fieldOp 0x3300000000000000 = 0x06 ∧ fieldFsel 0x3300000000000000 = 3) := by decide

theorem witness_DecodedWordIsEncodingOnUsedBits : decode 0x03800000FFFFFFFF = .ok (.rrdb 0) := rfl

theorem witness_UnusedFieldsAreIgnored : decode 0 = .ok (.rrdb 0) ∧
    (0x03800000FFFFFFFF : CmdWord) &&& (Instr.rrdb 0).usedBits = 0 &&& (Instr.rrdb 0).usedBits :=
  ⟨rfl, by decide⟩

theorem witness_IllegalWordsAnswerIllegalCommand : decode 0x4000000000000000 = .error .reservedOp ∧
    Table.lookup 0 (amState (amOf 0x1000 1 [])).blocks = some (amBlock (amOf 0x1000 1 [])) := ⟨rfl, by decide⟩

/-- The state of StepRunsDecodedCommand and SecondAgentIsStuck: agent `agent` has presented MSIZE at port 0. -/
def asked (agent : Nat) : State := { amState (amOf 0x1000 1 []) with inbox := [.command agent 0 0xC000000000000000] }

theorem witness_StepRunsDecodedCommand : (asked 0).inbox = .command 0 0 0xC000000000000000 :: [] ∧
    Table.lookup 0 (asked 0).blocks = some (amBlock (amOf 0x1000 1 [])) ∧
    (amBlock (amOf 0x1000 1 [])).owner = 0 ∧ decode 0xC000000000000000 = .ok .msize ∧
    State.hasUnit { asked 0 with port := 0 } .msize :=
  ⟨rfl, by decide, rfl, rfl, rfl⟩

/-- The reset state meets the invariant. -/
theorem reset_inv : State.reset.Inv := by
  refine ⟨by simp [State.reset, Table.Rising], fun p hp => ?_, by decide, by simp [State.reset]⟩
  simp only [State.reset, List.mem_cons, List.not_mem_nil, or_false] at hp
  rcases hp with rfl | rfl <;> intro m hm <;> cases hm
  exact ⟨by decide, by decide, by decide, trivial⟩

/-- A word for the AM at the current port, and one for the RF at another. -/
theorem witness_FetchWordRunsNext : State.reset.Inv ∧ State.hasUnit { State.reset with port := 0 } .msize ∧
    decodeTableWord 64 0xC000000000000000 = some .msize ∧ State.reset.hasUnit .msize ∧
    State.hasUnit { State.reset with port := 1 } .rdumpf ∧
    decodeTableWord 64 0x3800000000000000 = some .rdumpf ∧ ¬State.reset.hasUnit .rdumpf :=
  ⟨reset_inv, rfl, by decide, rfl, rfl, by decide, by simp [State.hasUnit, usesAm, Instr.opcode, Opcode.bits]; decide⟩

/-- The RF commands: a byte offset 25 and a word offset 24 in range, 26 and 25 out of range. -/
theorem witness_rf_commands : (rfState rfRow).rf = some rfRow ∧
    (25 : Half).toNat < 26 ∧ 26 ≤ (26 : Half).toNat ∧ 26 ≤ (0xFFFF : Half).toNat ∧
    (24 : Half).toNat + 1 < 26 ∧ 25 ≤ (25 : Half).toNat := by decide

/-- MRD and MWR: both ends of a window in range, and the addresses next to them out of range. -/
theorem witness_am_addresses : (amState (amOf 0x1000 256 [])).am = some (amOf 0x1000 256 []) ∧
    ((amOf 0x1000 256 []).base.toNat ≤ (0x1000 : Half).toNat ∧
      (0x1000 : Half).toNat ≤ (amOf 0x1000 256 []).base.toNat + (amOf 0x1000 256 []).cap - 1) ∧
    ((amOf 0x1000 256 []).base.toNat ≤ (0x10FF : Half).toNat ∧
      (0x10FF : Half).toNat ≤ (amOf 0x1000 256 []).base.toNat + (amOf 0x1000 256 []).cap - 1) ∧
    (0x0FFF : Half).toNat < (amOf 0x1000 256 []).base.toNat ∧
    (amOf 0x1000 256 []).base.toNat + (amOf 0x1000 256 []).cap - 1 < (0x1100 : Half).toNat := by decide

/-- MFILL, MDUMP and MSAVE: a span of one byte, the whole window, and each way a span fails, in order. -/
theorem witness_am_spans : (amState (amOf 0x1000 256 [])).am = some (amOf 0x1000 256 []) ∧
    resolveSpan (amOf 0x1000 256 []) .whole = (0x1000, 0x10FF) ∧
    resolveSpan (amOf 0x1000 256 []) (.range 0x10FF 0x10FF) = (0x10FF, 0x10FF) ∧
    (0x1000 ≤ 0x10FF ∧ 0x10FF - 0x1000 + 1 ≤ (amOf 0x1000 256 []).cap ∧
      (amOf 0x1000 256 []).base.toNat ≤ 0x1000 ∧
      0x10FF ≤ (amOf 0x1000 256 []).base.toNat + (amOf 0x1000 256 []).cap - 1) ∧
    span (amOf 0x1000 256 []) (.range 0x1003 0x1002) = .error (.overflowError 0x1003 0x1002) ∧
    span (amOf 0x1000 256 []) (.range 0x1000 0x1100) = .error (.overflowError 0x1000 0x1100) ∧
    span (amOf 0x1000 256 []) (.range 0x0FFF 0x10FE) = .error (.spanOutOfRange 0x0FFF 0x10FE) ∧
    span (amOf 0x1000 256 []) (.range 0x1001 0x1100) = .error (.spanOutOfRange 0x1001 0x1100) :=
  ⟨by decide, by decide, by decide, by decide, rfl, rfl, rfl, rfl⟩

/-- MSAVE and MLOAD: an absent handle, an existing one, a file of CAP bytes and one of another length. -/
theorem witness_am_files : fileState.am = some (amOf 0x100 4 [(0, 1), (1, 2), (2, 3), (3, 4)]) ∧
    fileState.file 8 = none ∧ fileState.file 9 = some [] ∧ fileState.file 5 = some [0xA, 0xB, 0xC, 0xD] ∧
    [0xA, 0xB, 0xC, 0xD].length = (amOf 0x100 4 [(0, 1), (1, 2), (2, 3), (3, 4)]).cap ∧
    fileState.file 6 = some [5, 6, 7, 8, 9] := by decide

/-- The accessors at the largest capacity, and the smallest. -/
theorem witness_AccessorsAnswerConfiguration : (amState (amOf 0 0x10000 [])).am = some (amOf 0 0x10000 []) ∧
    0 < (amOf 0 0x10000 []).cap ∧ (amOf 0 0x10000 []).base.toNat + (amOf 0 0x10000 []).cap - 1 ≤ 0xFFFF ∧
    (amState (amOf 0xFFFF 1 [])).am = some (amOf 0xFFFF 1 []) ∧
    (amOf 0xFFFF 1 []).base.toNat + (amOf 0xFFFF 1 []).cap - 1 ≤ 0xFFFF := by decide

theorem witness_SpanChecksInOrder : (amOf 0xFFFF 1 []).Ok ∧
    resolveSpan (amOf 0xFFFF 1 []) .whole = (0xFFFF, 0xFFFF) :=
  ⟨⟨by decide, by decide, by decide, trivial⟩, by decide⟩

/-- A dump at line width 1 and at line width 16. -/
theorem witness_MdumpEmitsLines : 0 < (amOf 0x40 1 []).cap ∧ min (amOf 0x40 1 []).cap 16 = 1 ∧
    min (amOf 0x1000 256 []).cap 16 = 16 ∧ ¬(0x1010 + 1 - 0x1000 ≤ min (amOf 0x1000 256 []).cap 16) := by decide

theorem witness_DumpLineFormat : (amOf 0x1000 256 []).base.toNat ≤ 0x1000 ∧ 0x1000 ≤ 0x100F ∧ 0xFFFF < 0x10000 := by
  decide

theorem witness_AsciiRendering : (0x1F : Byte).toInt < 32 ∧ (0x7F : Byte).toInt = 127 ∧ (0x80 : Byte).toInt < 32 ∧
    ¬((0x20 : Byte).toInt < 32 ∨ (0x20 : Byte).toInt = 127) ∧
    ¬((0x7E : Byte).toInt < 32 ∨ (0x7E : Byte).toInt = 127) := by decide

/-- A next state with an error, of each STATUS from 1 to 5. -/
theorem witness_errors :
    (∃ t, exec (.mrd 0x104) fileState = .next t ∧ t.response = some (.error (.outOfRange 0x104))) ∧
    (∃ t, exec (.mfill 0 (.range 0x101 0x100)) fileState = .next t ∧
      t.response = some (.error (.overflowError 0x101 0x100))) ∧
    (∃ t, exec (.mload 7) fileState = .next t ∧ t.response = some (.error (.fileNotFound 7))) ∧
    (∃ t, exec (.mload 9) fileState = .next t ∧ t.response = some (.error (.sizeMismatch 0))) ∧
    (∃ t, exec (.msave 9 .whole) fileState = .next t ∧ t.response = some (.error (.fileAlreadyExists 9))) :=
  ⟨⟨_, rfl, rfl⟩, ⟨_, rfl, rfl⟩, ⟨_, rfl, rfl⟩, ⟨_, rfl, rfl⟩, ⟨_, rfl, rfl⟩⟩

theorem witness_EveryCommandAnswers : (amState (amOf 0 1 [])).hasUnit .msize ∧
    ¬(amState (amOf 0 1 [])).hasUnit .rdumpf := by
  constructor <;> simp [State.hasUnit, usesAm, Instr.opcode, Opcode.bits] <;> decide

theorem witness_OnlyRfWritersChangeBytes : ∃ t x', exec (.rwrw 24 0) (rfState rfRow) = .next t ∧
    (rfState rfRow).rf = some rfRow ∧ t.rf = some x' ∧ x'.byte 25 ≠ rfRow.byte 25 := ⟨_, _, rfl, rfl, rfl, by decide⟩

theorem witness_OnlyFlagWritersChangeFlags :
    (∃ t x', exec (.rsetf .s) (rfState rfRow) = .next t ∧ (rfState rfRow).rf = some rfRow ∧ t.rf = some x' ∧
      (x'.byte 1).getLsbD 7 ≠ (rfRow.byte 1).getLsbD 7) ∧
    (∃ t x', exec (.rwrb 1 0x28) (rfState rfRow) = .next t ∧ (rfState rfRow).rf = some rfRow ∧ t.rf = some x' ∧
      (x'.byte 1).getLsbD 3 ≠ (rfRow.byte 1).getLsbD 3) :=
  ⟨⟨_, _, rfl, rfl, rfl, by decide⟩, ⟨_, _, rfl, rfl, rfl, by decide⟩⟩

theorem witness_OnlyAmWritersChangeCells :
    (∃ t m', exec (.mwr 0x103 9) fileState = .next t ∧ t.am = some m' ∧ m'.mem.read 3 ≠ 4) ∧
    (∃ t, exec .msize fileState = .next t ∧ Instr.msize.opcode ∉ [Opcode.mrd, .mdump, .msave]) :=
  ⟨⟨_, _, rfl, rfl, by decide⟩, ⟨_, rfl, by decide⟩⟩

theorem witness_OnlyDumpsEmitAndOnlyMsaveWritesFiles :
    (∃ t, exec (.mdump .whole) fileState = .next t ∧ t.out ≠ fileState.out) ∧
    (∃ t, exec (.msave 8 .whole) fileState = .next t ∧ t.file 8 ≠ fileState.file 8) :=
  ⟨⟨_, rfl, by decide⟩, ⟨_, rfl, by decide⟩⟩

theorem witness_ReadsHaveNoSideEffects :
    (∃ t, exec .mend fileState = .next t ∧ Instr.mend.opcode ∈ [Opcode.mrd, .rrdb, .rrdw, .rgetf, .mbegin, .mend, .msize]) ∧
    (∃ t, exec .rdumpf (rfState rfRow) = .next t ∧ Instr.rdumpf.opcode ∈ [Opcode.mdump, .rdumpf]) ∧
    (∃ t, exec (.mdump .whole) fileState = .next t ∧ (Instr.mdump .whole).opcode ∈ [Opcode.mdump, .rdumpf]) ∧
    (∃ t, exec (.msave 8 .whole) fileState = .next t ∧ (Instr.msave 8 .whole).opcode = .msave) :=
  ⟨⟨_, rfl, by decide⟩, ⟨_, rfl, by decide⟩, ⟨_, rfl, by decide⟩, ⟨_, rfl, rfl⟩⟩

/-- States with an AM at port 0 and an RF at port 1, of which the current one is port `p`. -/
def twoState (m : Am) (x : Rf) (p : Nat) : State := { stateOf [(0, amBlock m), (1, rfBlock x)] [] with port := p }

/-- A second state with the same RF but another AM, and one with the same AM and files but another RF; a write and a
dump of each unit. -/
theorem witness_UnitsShareNothing :
    (∃ t u, exec (.rwrb 0 1) (twoState (amOf 0 1 []) rfRow 1) = .next t ∧
      exec .rdumpf (twoState (amOf 0 1 []) rfRow 1) = .next u ∧ usesAm (.rwrb 0 1) = false ∧ usesAm .rdumpf = false ∧
      (twoState (amOf 0 2 []) rfRow 1).rf = (twoState (amOf 0 1 []) rfRow 1).rf ∧
      (twoState (amOf 0 2 []) rfRow 1).blocks ≠ (twoState (amOf 0 1 []) rfRow 1).blocks) ∧
    (∃ t u, exec (.mwr 0 1) (twoState (amOf 0 1 []) rfRow 0) = .next t ∧
      exec (.mdump .whole) (twoState (amOf 0 1 []) rfRow 0) = .next u ∧
      usesAm (.mwr 0 1) = true ∧ usesAm (.mdump .whole) = true ∧
      (twoState (amOf 0 1 []) (rfWithF 0) 0).am = (twoState (amOf 0 1 []) rfRow 0).am ∧
      (twoState (amOf 0 1 []) (rfWithF 0) 0).files = (twoState (amOf 0 1 []) rfRow 0).files ∧
      (twoState (amOf 0 1 []) (rfWithF 0) 0).blocks ≠ (twoState (amOf 0 1 []) rfRow 0).blocks) :=
  ⟨⟨_, _, rfl, rfl, by decide, by decide, by decide, by decide⟩,
    ⟨_, _, rfl, rfl, by decide, by decide, by decide, by decide, by decide⟩⟩

/-- A state whose inbox holds one request. -/
def asking (r : Request) : State := { amState (amOf 0x1000 1 []) with inbox := [r] }

/-- Each kind of request, with a next state, and one taken from behind another that is stuck. -/
theorem witness_OtherBlocksAreUntouched :
    (∃ t, step (asking (.command 0 0 0xC000000000000000)) = .next t) ∧
    (∃ t, step (asking (.constructAm 7 1 ⟨0, 1, .fill 0⟩)) = .next t) ∧
    (∃ t, step (asking (.constructRf 7 1)) = .next t) ∧ (∃ t, step (asking (.destroy 0 0)) = .next t) ∧
    (∃ t, step (asking (.handOver 0 0 7)) = .next t) ∧ (∃ t, step (asking (.hostFile 0 none)) = .next t) ∧
    (∃ t, step { asking (.destroy 1 0) with inbox := [.destroy 1 0, .constructRf 7 1] } = .next t) :=
  ⟨⟨_, rfl⟩, ⟨_, rfl⟩, ⟨_, rfl⟩, ⟨_, rfl⟩, ⟨_, rfl⟩, ⟨_, rfl⟩, ⟨_, rfl⟩⟩

theorem witness_CommandSeesOnlyItsOwnBlock :
    Table.lookup 0 { amState (amOf 0 1 []) with out := ['x'], draws := 5 }.blocks =
      Table.lookup 0 (amState (amOf 0 1 [])).blocks ∧
    { amState (amOf 0 1 []) with out := ['x'], draws := 5 }.files = (amState (amOf 0 1 [])).files := by decide

/-- Agent 1's word at agent 0's port, alone, and before a request of agent 7 that has a step. -/
theorem witness_SecondAgentIsStuck : (asked 1).inbox = [.command 1 0 0xC000000000000000] ∧
    Table.lookup 0 (asked 1).blocks = some (amBlock (amOf 0x1000 1 [])) ∧
    (amBlock (amOf 0x1000 1 [])).owner ≠ 1 ∧ decode 0xC000000000000000 = .ok .msize ∧
    ∃ t, step { asked 1 with inbox := (asked 1).inbox ++ [.constructRf 7 1] } = .next t :=
  ⟨rfl, by decide, by decide, rfl, _, rfl⟩

/-- Agent 1's word is stuck and holds up its own construction; agent 0's, for the other unit, is stuck too. -/
def heldUp : List Request := [.command 1 0 0xC000000000000000, .constructRf 1 1, .command 0 0 0]

theorem heldUp_heldUp (l : List Request) : State.HeldUp { asked 1 with inbox := l } heldUp := by
  intro pre q rest e
  rcases pre with _ | ⟨a, _ | ⟨b, _ | ⟨c, more⟩⟩⟩ <;> simp [heldUp] at e
  · exact .inl ⟨.notOwner, by rw [← e.1]; rfl⟩
  · exact .inr (by simp [← e.1, ← e.2.1, Request.agent])
  · exact .inl ⟨.noUnit, by rw [← e.2.2.1]; rfl⟩

/-- Before a request of agent 7 that has a step; and alone, where the step is a fault though the second has a step. -/
theorem witness_StuckRequestsHoldUpNoOtherAgent : (∀ l, State.HeldUp { asked 1 with inbox := l } heldUp) ∧
    (Request.constructRf 7 1).agent ∉ heldUp.map Request.agent ∧
    (∃ t, perform (.constructRf 7 1) { asked 1 with inbox := heldUp ++ [] } = .next t) ∧
    (∃ t, perform (.constructRf 1 1) { asked 1 with inbox := heldUp } = .next t) ∧
    perform (.command 1 0 0xC000000000000000) { asked 1 with inbox := heldUp } = .fault .notOwner ∧
    step { asked 1 with inbox := heldUp } = .fault .notOwner :=
  ⟨heldUp_heldUp, by decide, ⟨_, rfl⟩, ⟨_, rfl⟩, rfl, rfl⟩

/-- A step from a state that meets the invariant, with a file and an AM that lists a cell. -/
theorem witness_StepKeepsInvariant :
    State.Inv { fileState with inbox := [.command 0 0 0x8800010300000022] } ∧
    ∃ t, step { fileState with inbox := [.command 0 0 0x8800010300000022] } = .next t := by
  refine ⟨⟨by decide, ?_, by decide, by decide⟩, _, rfl⟩
  intro p hp
  obtain rfl := List.mem_singleton.mp hp
  intro m hm
  obtain rfl := Option.some.inj hm
  exact ⟨by decide, by decide, by decide, trivial⟩

theorem witness_WordAndByteViewsAgree :
    (rfState rfRow).rf = some rfRow ∧ (24 : Half).toNat + 1 < 26 ∧ (∃ t, exec (.rwrw 24 0x1234) (rfState rfRow) = .next t) ∧
    (23 : Half).toNat + 2 < 26 ∧ (1 : Half).toNat - 1 < 26 ∧ 0 < (1 : Half).toNat ∧
    (∃ t t', exec (.rwrb 24 1) (rfState rfRow) = .next t ∧ exec (.rwrb (24 + 1) 2) t = .next t') :=
  ⟨rfl, by decide, ⟨_, rfl⟩, by decide, by decide, by decide, _, _, rfl, rfl⟩

theorem witness_FlagAccessorsAgree : (rfState rfRow).rf = some rfRow ∧ Flag.s ≠ Flag.c ∧
    (∃ t, exec (.rsetf .c) (rfState rfRow) = .next t) ∧ (∃ t, exec (.rclrf .c) (rfState rfRow) = .next t) :=
  ⟨rfl, by decide, ⟨_, rfl⟩, ⟨_, rfl⟩⟩

/-- The MFILL clauses at a span of one cell, with a cell beside it, and at the whole block. -/
theorem witness_MemoryReadAfterWrite : (amState (amOf 0x1000 2 [])).am = some (amOf 0x1000 2 []) ∧
    (amOf 0x1000 2 []).Ok ∧ (amOf 0x1000 2 []).base.toNat ≤ (0x1000 : Half).toNat ∧
    (0x1001 : Half).toNat ≤ (amOf 0x1000 2 []).last ∧
    (∃ t, exec (.mwr 0x1001 9) (amState (amOf 0x1000 2 [])) = .next t) ∧
    span (amOf 0x1000 2 []) (.range 0x1001 0x1001) = .ok (0x1001, 0x1001) ∧
    (∃ t, exec (.mfill 9 (.range 0x1001 0x1001)) (amState (amOf 0x1000 2 [])) = .next t) ∧
    (∃ t, exec (.mfill 9 .whole) (amState (amOf 0x1000 2 [])) = .next t) :=
  ⟨rfl, ⟨by decide, by decide, by decide, trivial⟩, by decide, by decide, ⟨_, rfl⟩, rfl, ⟨_, rfl⟩, ⟨_, rfl⟩⟩

/-- W7's instance: the saving state, and a state with another base and the file saved. -/
theorem witness_SaveThenLoadRoundTrip :
    (amOf 0x100 4 [(0, 1), (1, 2), (2, 3), (3, 4)]).Ok ∧
    (∃ t, exec (.msave 8 .whole) fileState = .next t ∧ t.response = some (.ok 0) ∧
      (stateOf [(0, amBlock (amOf 0xFFFC 4 []))] [(8, [1, 2, 3, 4])]).file 8 = t.file 8) ∧
    (stateOf [(0, amBlock (amOf 0xFFFC 4 []))] [(8, [1, 2, 3, 4])]).am = some (amOf 0xFFFC 4 []) :=
  ⟨⟨by decide, by decide, by decide, trivial⟩, ⟨_, rfl, rfl, by decide⟩, rfl⟩

/-- A free port beside a live one; the smallest and largest windows; a range of one value; an image of CAP bytes. -/
theorem witness_ConstructionSetsEveryCell : Table.lookup 1 fileState.blocks = none ∧
    0 < 1 ∧ (0xFFFF : Half).toNat + 1 - 1 ≤ 0xFFFF ∧ (0 : Half).toNat + 0x10000 - 1 ≤ 0xFFFF ∧
    (5 : Byte).toNat ≤ (5 : Byte).toNat ∧ fileState.file 5 = some [0xA, 0xB, 0xC, 0xD] := by decide

/-- Each failure: CAP 0, a window one past the end, lo > hi, an absent image, an image of another length. -/
theorem witness_FailedConstructionMakesNoInstance : Table.lookup 1 fileState.blocks = none ∧
    (AmConfig.mk 0 0 (.fill 0)).cap = 0 ∧
    0xFFFF < (AmConfig.mk 0xFF00 0x101 (.fill 0)).base.toNat + (AmConfig.mk 0xFF00 0x101 (.fill 0)).cap - 1 ∧
    (∃ lo hi : Byte, (AmConfig.mk 0 1 (.random 6 5)).init = .random lo hi ∧ hi.toNat < lo.toNat) ∧
    fileState.file 7 = none ∧ fileState.file 6 = some [5, 6, 7, 8, 9] ∧ [5, 6, 7, 8, 9].length ≠ 4 :=
  ⟨rfl, rfl, by decide, ⟨6, 5, rfl, by decide⟩, by decide, by decide, by decide⟩

/-- A free port; the ends of the RF; a command that writes no RF byte. -/
theorem witness_RfConstructionMakesFreeBytes : Table.lookup 1 fileState.blocks = none ∧
    (0 : Half).toNat < 26 ∧ (25 : Half).toNat < 26 ∧
    (∃ v, exec .rdumpf { fileState.putBlock 1 (rfBlock rfRow) with port := 1 } = .next v) ∧
    Instr.rdumpf.opcode ∉ [Opcode.rwrb, .rwrw, .rsetf, .rclrf] :=
  ⟨rfl, by decide, by decide, ⟨_, rfl⟩, by decide⟩

/-- An AM and an RF, each at its own port. -/
theorem witness_DestroyedInstanceIsUnreachable : ∃ b c, Table.lookup 0 State.reset.blocks = some b ∧ b.am.isSome ∧
    Table.lookup 1 State.reset.blocks = some c ∧ c.rf.isSome := ⟨_, _, rfl, rfl, rfl, rfl⟩

/-- The same, with the owner and another agent asking. -/
theorem witness_LiveUnitIsNotConstructedAgain : ∃ b c, Table.lookup 0 State.reset.blocks = some b ∧
    Table.lookup 1 State.reset.blocks = some c ∧ 0 = b.owner ∧ 7 ≠ b.owner := ⟨_, _, rfl, rfl, rfl, by decide⟩

theorem witness_AssemblerRefusesWhatDoesNotFit : assemble (.rwrb 0xFFFF 0xFF) = some 0x0800FFFF000000FF ∧
    assemble (.mfill 0xFF (some (0xFFFF, 0xFFFF))) = some 0x9080FFFFFFFF00FF ∧
    assemble (.msave 0xFFFF (some (1, 2))) = some 0xA08000010002FFFF ∧
    assemble (.mfill 0x100 none) = none ∧ assemble (.putWord .iy 0xFFFF) = some 0x180000180000FFFF := by decide

end Sys2Proof.Tests
end

section
/-! What keeps the invariant, from the updates of the state up to a step, and that every command answers. -/

namespace Sys2Proof.Machine

/-! ### The invariant under the host's updates -/

/-- The invariant speaks of the two tables only. -/
theorem State.Inv.of_tables {s t : State} (h : s.Inv) (hb : t.blocks = s.blocks) (hf : t.files = s.files) :
    t.Inv := by
  unfold State.Inv
  rw [hb, hf]
  exact h

theorem State.Inv.putBlock {s : State} (h : s.Inv) (port : Nat) {b : Block} (hb : b.Ok) : (s.putBlock port b).Inv := by
  obtain ⟨hr, hok, hfiles⟩ := h
  refine ⟨Table.rising_insert hr, fun p hp => ?_, hfiles⟩
  rcases Table.mem_insert hp with rfl | hp
  · exact hb
  · exact hok p hp

theorem State.Inv.eraseBlock {s : State} (h : s.Inv) (port : Nat) :
    State.Inv { s with blocks := Table.erase port s.blocks } := by
  obtain ⟨hr, hok, hfiles⟩ := h
  exact ⟨Table.rising_erase hr, fun p hp => hok p (Table.mem_erase hp).1, hfiles⟩

theorem State.Inv.eraseFile {s : State} (h : s.Inv) (g : Half) :
    State.Inv { s with files := Table.erase g.toNat s.files } := by
  obtain ⟨hr, hok, hf, hg⟩ := h
  exact ⟨hr, hok, Table.rising_erase hf, fun p hp => hg p (Table.mem_erase hp).1⟩

/-- The block at any port of a state that meets the invariant is well-formed. -/
theorem State.Inv.block {s : State} (h : s.Inv) {port : Nat} {b : Block} (hb : Table.lookup port s.blocks = some b) :
    b.Ok := by
  obtain ⟨-, hok, -⟩ := h
  exact hok _ (Table.mem_of_lookup hb)

theorem Block.ok_of_am {b : Block} {m : Am} (hb : b.am = some m) (hm : m.Ok) : b.Ok := by
  intro m' h
  cases hb.symm.trans h
  exact hm

/-- A block without an AM unit has nothing to be ill-formed in. -/
theorem Block.ok_of_am_none {b : Block} (hb : b.am = none) : b.Ok := by
  intro m h
  cases hb.symm.trans h

/-! ### The invariant under commands, requests and steps -/

/-- A command keeps the invariant: only a run of cell writes touches what it says of an AM, and that run lies within
the window. -/
theorem exec_keeps_inv {i : Instr} {s t : State} (hs : s.Inv) (h : exec i s = .next t) : t.Inv := by
  obtain ⟨e, rfl⟩ | ⟨r, rfl, -⟩ | ⟨x, x', -, rfl, -⟩ | ⟨m, a, bytes, hm, ha, he, rfl, -⟩ | ⟨text, r, rfl, -⟩ |
    ⟨g, sp, bytes, -, -, rfl⟩ := exec_next h
  · exact hs.reply _
  · exact hs.reply _
  · exact (hs.setRf x').reply _
  · have hok : m.Ok := hs.am hm
    have hend : a + bytes.length ≤ m.base.toNat + m.cap := by
      have hcap : 0 < m.cap := hok.1
      simp only [Am.last] at he
      omega
    exact (hs.setAm (hok.writeBytes ha hend)).reply _
  · exact (hs.emit text).reply _
  · exact (hs.setFile g bytes).reply _

/-- A request keeps the invariant: what it constructs is well-formed, and what it hands over was. -/
theorem perform_keeps_inv {r : Request} {s t : State} (hs : s.Inv) (h : perform r s = .next t) : t.Inv := by
  obtain ⟨port, w, b, -, -, hc⟩ | ⟨agent, port, cfg, -, -, hc⟩ | ⟨agent, port, -, -, rfl⟩ | ⟨port, b, -, -, rfl⟩ |
    ⟨port, new, b, -, hb, rfl⟩ | ⟨g, bytes, -, rfl⟩ | ⟨g, -, rfl⟩ := perform_next h
  · have hport : State.Inv { s with port := port } := hs.of_tables rfl rfl
    obtain ⟨i, -, hx⟩ | ⟨e, -, rfl⟩ := hc
    · exact exec_keeps_inv hport hx
    · exact hport.reply _
  · obtain ⟨c, hw, hcon, rfl⟩ | ⟨e, -, -, rfl⟩ | ⟨-, rfl⟩ := hc
    · exact (hs.putBlock port (Block.ok_of_am rfl (construct_am_ok hw hcon))).of_tables rfl rfl
    · exact hs.of_tables rfl rfl
    · exact hs.of_tables rfl rfl
  · exact (hs.putBlock port (Block.ok_of_am_none rfl)).of_tables rfl rfl
  · exact hs.eraseBlock port
  · exact hs.putBlock port ((hs.block hb).of_am rfl)
  · exact hs.setFile g bytes
  · exact hs.eraseFile g

/-- Settles O40: a step performs one waiting request or nothing, and a request keeps the invariant. -/
theorem stepKeepsInvariant : Obligations.StepKeepsInvariant := by
  intro s t hs h
  obtain ⟨-, rfl⟩ | ⟨pre, r, rest, -, -, hp⟩ := step_next h
  · exact hs
  · have htaken : State.Inv { s with inbox := pre ++ rest } := hs.of_tables rfl rfl
    exact perform_keeps_inv htaken hp

/-! ### The state after reset -/

/-- The AM unit of `State.reset` (log 1) is well-formed. -/
theorem resetAm_ok :
    Am.Ok { base := Config.resetBase, cap := Config.resetCap,
            mem := { contents := .filled Config.resetFill, cells := [] } } :=
  ⟨by decide, by decide, Memory.nil_wf _ _, trivial⟩

/-- Settles O41: the two ports rise, the AM is well-formed, the RF has nothing to be otherwise, no file is listed. -/
theorem resetMeetsInvariant : Obligations.ResetMeetsInvariant := by
  refine ⟨by simp [State.reset, Table.Rising], ?_, List.Pairwise.nil, by simp [State.reset]⟩
  simp only [State.reset, List.forall_mem_cons, List.not_mem_nil, false_imp_iff, implies_true, and_true]
  exact ⟨Block.ok_of_am rfl resetAm_ok, Block.ok_of_am_none rfl⟩

/-! ### Every command answers -/

theorem done_answers (r : RData) (s : State) : ∃ t, done r s = .next t := ⟨_, rfl⟩

/-- A check answers where going on with its value does: its error is an answer too. -/
theorem orRaise_answers {α : Type} (c : Except Error α) (s : State) {k : α → Result} (hk : ∀ a, ∃ t, k a = .next t) :
    ∃ t, orRaise c s k = .next t := by
  cases c with
  | ok a => exact hk a
  | error e => exact ⟨_, rfl⟩

/-- A command asks for the unit that OP[4] selects, and with that unit it answers, whatever the unit holds. -/
theorem exec_withUnit (i : Instr) (s : State) :
    (usesAm i = true ∧ ∃ k, exec i s = withAm s k ∧ ∀ m, ∃ t, k m = .next t) ∨
    (usesAm i = false ∧ ∃ k, exec i s = withRf s k ∧ ∀ x, ∃ t, k x = .next t) := by
  cases i with
  | rrdb | rwrb | rrdw | rwrw =>
    refine .inr ⟨by simp [usesAm, Instr.opcode, Opcode.bits], _, rfl, fun x => ?_⟩
    exact orRaise_answers _ _ fun p => done_answers _ _
  | rgetf | rsetf | rclrf | rdumpf =>
    exact .inr ⟨by simp [usesAm, Instr.opcode, Opcode.bits], _, rfl, fun x => done_answers _ _⟩
  | mrd | mwr | mfill | mdump | mload =>
    refine .inl ⟨by simp [usesAm_iff, Instr.opcode], _, rfl, fun m => ?_⟩
    exact orRaise_answers _ _ fun n => done_answers _ _
  | msave =>
    refine .inl ⟨by simp [usesAm_iff, Instr.opcode], _, rfl, fun m => ?_⟩
    exact orRaise_answers _ _ fun r => orRaise_answers _ _ fun u => done_answers _ _
  | mbegin | mend | msize => exact .inl ⟨rfl, _, rfl, fun m => done_answers _ _⟩

theorem exec_answers {i : Instr} {s : State} (h : s.hasUnit i) : ∃ t, exec i s = .next t := by
  obtain ⟨hu, k, hx, hk⟩ | ⟨hu, k, hx, hk⟩ := exec_withUnit i s <;> simp only [State.hasUnit, hu] at h
  · obtain ⟨m, hm⟩ := Option.isSome_iff_exists.mp h
    rw [hx, withAm_some hm]
    exact hk m
  · obtain ⟨x, hx'⟩ := Option.isSome_iff_exists.mp h
    rw [hx, withRf_some hx']
    exact hk x

theorem exec_noUnit {i : Instr} {s : State} (h : ¬s.hasUnit i) : exec i s = .fault .noUnit := by
  obtain ⟨hu, k, hx, -⟩ | ⟨hu, k, hx, -⟩ := exec_withUnit i s <;> simp only [State.hasUnit, hu] at h
  · rw [hx, withAm_none (by simpa using h)]
  · rw [hx, withRf_none (by simpa using h)]

theorem State.here_isSome_of_hasUnit {s : State} {i : Instr} (h : s.hasUnit i) : s.here.isSome := by
  unfold State.hasUnit at h
  split at h
  · obtain ⟨m, hm⟩ := Option.isSome_iff_exists.mp h
    exact State.here_isSome_of_am hm
  · obtain ⟨x, hx⟩ := Option.isSome_iff_exists.mp h
    exact State.here_isSome_of_rf hx

/-- The last thing a command does is to reply: before that it has changed nothing outside the block, and the
block still stands there. -/
theorem exec_next_reply {i : Instr} {s t : State} (h : exec i s = .next t) :
    ∃ u r, t = u.reply r ∧ s.SameOutside u ∧ u.here.isSome = s.here.isSome := by
  obtain ⟨e, ht⟩ | ⟨r, ht, -⟩ | ⟨x, x', -, ht, -⟩ | ⟨m, a, bytes, -, -, -, ht, -⟩ | ⟨text, r, ht, -⟩ |
    ⟨g, sp, bytes, -, -, ht⟩ := exec_next h
  · exact ⟨_, _, ht, .refl s, rfl⟩
  · exact ⟨_, _, ht, .refl s, rfl⟩
  · exact ⟨_, _, ht, s.sameOutside_setRf x', by simp⟩
  · exact ⟨_, _, ht, s.sameOutside_setAm _, by simp⟩
  · exact ⟨_, _, ht, s.sameOutside_emit text, rfl⟩
  · exact ⟨_, _, ht, s.sameOutside_setFile g bytes, rfl⟩

/-- Settles O28: with its unit a command answers, and what it answers is a reply at the port. -/
theorem everyCommandAnswers : Obligations.EveryCommandAnswers := by
  refine fun i s => ⟨fun hu => ?_, exec_noUnit⟩
  obtain ⟨t, ht⟩ := exec_answers hu
  obtain ⟨u, r, rfl, hout, hhere⟩ := exec_next_reply ht
  have hu_here : u.here.isSome := hhere.trans (State.here_isSome_of_hasUnit hu)
  exact ⟨_, r, ht, State.reply_response hu_here r, hout.trans (State.sameOutside_reply u r)⟩

end Sys2Proof.Machine
end

section
/-! What a command can do to the RF behind the port, byte by byte and flag by flag; the named registers; a new RF. -/

namespace Sys2Proof.Machine

/-! ### Replies and values -/

theorem Table.modify_modify {α : Type} (k : Nat) (f g : α → α) (l : List (Nat × α)) :
    modify k f (modify k g l) = modify k (f ∘ g) l := by
  induction l with
  | nil => rfl
  | cons p t ih =>
    simp only [modify]
    split <;> simp [modify, *]

/-- A reply takes the place of the one before it. -/
@[simp] theorem State.reply_reply (s : State) (r r' : Response) : (s.reply r).reply r' = s.reply r' := by
  simp only [State.reply, State.modifyHere, Table.modify_modify]
  rfl

@[simp] theorem zextByte_toNat (b : Byte) : (zextByte b).toNat = b.toNat :=
  BitVec.toNat_setWidth_of_le (by decide)

/-! ### Words and named registers -/

/-- The value of `{hi, lo}` (20_memory.md R52). -/
theorem word_toNat (hi lo : Byte) : (word hi lo).toNat = lo.toNat + 256 * hi.toNat := by
  have hor : hi.toNat <<< 8 + lo.toNat = hi.toNat <<< 8 ||| lo.toNat := Nat.shiftLeft_add_eq_or_of_lt lo.isLt _
  rw [word, BitVec.toNat_append, ← hor, Nat.shiftLeft_eq]
  omega

/-- A word register's value is that of the pair of bytes the table names for it (10_state.md R26). -/
theorem Rf.word_namedRegister_toNat (x : Rf) (reg : WordReg) :
    (x.word reg.offset).toNat =
      (x.byte (Config.regLayout.low reg)).toNat + 256 * (x.byte (Config.regLayout.high reg)).toNat := by
  rw [Rf.word, word_toNat, WordReg.offset_castSucc, WordReg.offset_succ]

/-- Settles O53: the table is closed data, and a word register is the pair at its offset. -/
theorem namedWordsAreRegisterPairs : Obligations.NamedWordsAreRegisterPairs :=
  ⟨by decide, by decide, by decide, Rf.word_namedRegister_toNat, fun x => x.word_namedRegister_toNat .bc⟩

/-! ### The F byte and its bits -/

/-- F is the byte at offset 1 (10_state.md R31). -/
theorem Rf.flags_eq_byte (x : Rf) : x.flags = x.byte 1 := rfl

theorem Rf.byte_setFlags (x : Rf) (b : Byte) (p : Fin 26) :
    (x.setFlags b).byte p = if p = 1 then b else x.byte p :=
  x.byte_setByte ByteReg.f.offset p b

/-- A flag's mask has the bit of its number alone. -/
theorem Flag.getLsbD_mask (f : Flag) (n : Nat) : f.mask.getLsbD n = decide (f.fsel.toNat = n) := by
  have hbit : f.mask = BitVec.twoPow 8 f.fsel.toNat := rfl
  rw [hbit, BitVec.getLsbD_twoPow, decide_eq_true f.fsel.isLt, Bool.true_and]

theorem getLsbD_setFlag {f : Flag} {n : Nat} (h : n ≠ f.fsel.toNat) (b : Byte) :
    (setFlag f b).getLsbD n = b.getLsbD n := by
  simp [setFlag, Flag.getLsbD_mask, h.symm]

theorem getLsbD_clearFlag {f : Flag} {n : Nat} (h : n ≠ f.fsel.toNat) (b : Byte) :
    (clearFlag f b).getLsbD n = b.getLsbD n := by
  simpa [clearFlag, Flag.getLsbD_mask, h.symm] using BitVec.lt_of_getLsbD

/-! ### What a command leaves in the RF -/

/-- With an RF behind the port a command leaves it as it is, or writes it as its meaning says. -/
theorem exec_rf {i : Instr} {s t : State} {x : Rf} (h : exec i s = .next t) (hx : s.rf = some x) :
    ∃ x', t.rf = some x' ∧ (x' = x ∨ RfWrite i x x') := by
  obtain ⟨e, rfl⟩ | ⟨r, rfl, -⟩ | ⟨y, x', hy, rfl, hw⟩ | ⟨m, a, bytes, -, -, -, rfl, -⟩ | ⟨text, r, rfl, -⟩ |
    ⟨g, sp, bytes, -, -, rfl⟩ := exec_next h
  case inr.inr.inl =>
    cases hx.symm.trans hy
    exact ⟨x', by rw [State.reply_rf, State.setRf_rf hx], .inr hw⟩
  all_goals exact ⟨x, by simpa using hx, .inl rfl⟩

theorem Rf.eq_of_setByte_changed {x : Rf} {q p : Fin 26} {v : Byte} (hp : (x.setByte q v).byte p ≠ x.byte p) :
    p = q :=
  Decidable.byContradiction fun hne => hp (by rw [Rf.byte_setByte, if_neg hne])

theorem Rf.eq_of_setWord_changed {x : Rf} {q : Fin 25} {p : Fin 26} {v : Half}
    (hp : (x.setWord q v).byte p ≠ x.byte p) : p = q.castSucc ∨ p = q.succ := by
  refine Decidable.byContradiction fun hne => hp ?_
  obtain ⟨hlow, hhigh⟩ := not_or.mp hne
  rw [Rf.byte_setWord, if_neg hhigh, if_neg hlow]

/-- A byte that a command changes is one that its write covers. -/
theorem RfWrite.covers {i : Instr} {x x' : Rf} {p : Fin 26} (h : RfWrite i x x') (hp : x'.byte p ≠ x.byte p) :
    (∃ o v, i = .rwrb o v ∧ p.val = o.toNat) ∨
    (∃ o v, i = .rwrw o v ∧ (p.val = o.toNat ∨ p.val = o.toNat + 1)) ∨
    (p = 1 ∧ ∃ f, i = .rsetf f ∨ i = .rclrf f) := by
  obtain ⟨o, v, q, rfl, hq, rfl⟩ | ⟨o, v, q, rfl, hq, rfl⟩ | ⟨f, rfl, rfl⟩ | ⟨f, rfl, rfl⟩ := h
  · obtain rfl := Rf.eq_of_setByte_changed hp
    exact .inl ⟨o, v, rfl, hq⟩
  · refine .inr (.inl ⟨o, v, rfl, ?_⟩)
    obtain rfl | rfl := Rf.eq_of_setWord_changed hp
    · exact .inl hq
    · exact .inr (congrArg (· + 1) hq)
  · exact .inr (.inr ⟨Rf.eq_of_setByte_changed hp, f, .inl rfl⟩)
  · exact .inr (.inr ⟨Rf.eq_of_setByte_changed hp, f, .inr rfl⟩)

/-- A flag command changes no bit of F but its own flag's. -/
theorem RfWrite.flag_bit {i : Instr} {f : Flag} {x x' : Rf} {n : Nat} (h : RfWrite i x x')
    (hi : i = .rsetf f ∨ i = .rclrf f) (hn : (x'.byte 1).getLsbD n ≠ (x.byte 1).getLsbD n) : n = f.fsel.toNat := by
  refine Decidable.byContradiction fun hne => hn ?_
  obtain ⟨o, v, q, rfl, -, -⟩ | ⟨o, v, q, rfl, -, -⟩ | ⟨g, rfl, rfl⟩ | ⟨g, rfl, rfl⟩ := h
  · simp at hi
  · simp at hi
  · obtain rfl : g = f := by simpa using hi
    rw [Rf.byte_setFlags, if_pos rfl, getLsbD_setFlag hne, Rf.flags_eq_byte]
  · obtain rfl : g = f := by simpa using hi
    rw [Rf.byte_setFlags, if_pos rfl, getLsbD_clearFlag hne, Rf.flags_eq_byte]

/-- The RF behind the port differs after a command only by its write. -/
theorem exec_rfWrite {i : Instr} {s t : State} {x x' : Rf} (h : exec i s = .next t) (hx : s.rf = some x)
    (hx' : t.rf = some x') (hne : x' ≠ x) : RfWrite i x x' := by
  obtain ⟨y, hy, heq | hw⟩ := exec_rf h hx <;> cases hx'.symm.trans hy
  · exact absurd heq hne
  · exact hw

/-- Settles O31: a byte changes only by a write of the RF that covers it. -/
theorem onlyRfWritersChangeBytes : Obligations.OnlyRfWritersChangeBytes := by
  intro i s t x x' p h hx hx' hp
  have hne : x' ≠ x := fun e => hp (by rw [e])
  exact (exec_rfWrite h hx hx' hne).covers hp

/-- Settles O32: by O31 at offset 1, with the bit of a flag command named by its own flag. -/
theorem onlyFlagWritersChangeFlags : Obligations.OnlyFlagWritersChangeFlags := by
  refine ⟨fun i s t x x' n h hx hx' hn => ?_, fun f => by cases f <;> decide⟩
  have hbyte : x'.byte 1 ≠ x.byte 1 := fun e => hn (by rw [e])
  have hw : RfWrite i x x' := exec_rfWrite h hx hx' fun e => hn (by rw [e])
  obtain ⟨o, v, rfl, ho⟩ | ⟨o, v, rfl, ho⟩ | ⟨-, f, hi⟩ := hw.covers hbyte
  · obtain rfl : o = 1 := BitVec.eq_of_toNat_eq ho.symm
    exact .inl ⟨v, rfl⟩
  · obtain ho | ho := ho
    · obtain rfl : o = 1 := BitVec.eq_of_toNat_eq ho.symm
      exact .inr (.inl ⟨v, .inr rfl⟩)
    · obtain rfl : o = 0 := BitVec.eq_of_toNat_eq (Nat.succ_inj.mp ho).symm
      exact .inr (.inl ⟨v, .inl rfl⟩)
  · exact .inr (.inr ⟨f, hw.flag_bit hi hn, hi⟩)

/-! ### A new RF -/

/-- The bytes of a new RF are the draws of its construction (10_state.md R34). -/
@[simp] theorem Rf.byte_construct (k : Nat) (o : Fin 26) : (Rf.construct k).byte o = Config.rfDraw k o := by
  simp [Rf.byte, Rf.construct]

theorem exec_rrdb {s : State} {x : Rf} {o : Half} (hx : s.rf = some x) (ho : o.toNat < 26) :
    exec (.rrdb o) s = .next (s.reply (.ok (zextByte (x.byte ⟨o.toNat, ho⟩)))) := by
  simp only [exec, execRrdb]
  rw [withRf_some hx, byteOffset_ok ho, orRaise_ok, done]

/-- RRDB answers the byte of the RF behind the port. -/
theorem exec_rrdb_answers {s : State} {x : Rf} {o : Half} (hx : s.rf = some x) (ho : o.toNat < 26) :
    ∃ u r, exec (.rrdb o) s = .next u ∧ u.response = some (.ok r) ∧ r.toNat = (x.byte ⟨o.toNat, ho⟩).toNat :=
  ⟨_, _, exec_rrdb hx ho, State.reply_response (State.here_isSome_of_rf hx) _, zextByte_toNat _⟩

/-- Reading a byte a second time leaves the state as it is. -/
theorem exec_rrdb_again {s u : State} {x : Rf} {o : Half} (hx : s.rf = some x) (ho : o.toNat < 26)
    (h : exec (.rrdb o) s = .next u) : exec (.rrdb o) u = .next u := by
  obtain rfl : s.reply _ = u := Host.Outcome.next.inj ((exec_rrdb hx ho).symm.trans h)
  rw [exec_rrdb (by rw [State.reply_rf, hx]) ho, State.reply_reply]

/-- A command that is none of the four writers leaves the RF as it is. -/
theorem exec_rf_of_not_writer {i : Instr} {s t : State} {x : Rf} (h : exec i s = .next t) (hx : s.rf = some x)
    (hi : i.opcode ∉ [.rwrb, .rwrw, .rsetf, .rclrf]) : t.rf = some x := by
  obtain ⟨x', hx', rfl | hw⟩ := exec_rf h hx
  · exact hx'
  · obtain ⟨o, v, q, rfl, -⟩ | ⟨o, v, q, rfl, -⟩ | ⟨f, rfl, -⟩ | ⟨f, rfl, -⟩ := hw <;> simp [Instr.opcode] at hi

theorem constructRf_eq {s : State} {port : Nat} (h : Table.lookup port s.blocks = none) (agent : Nat) :
    perform (.constructRf agent port) s =
      .next (s.putBlock port ⟨agent, .rf (Rf.construct s.draws), none⟩).constructed :=
  atFreePort_eq h _

/-- Settles O49: reads show the draws, and a command that is no writer leaves them. -/
theorem rfConstructionMakesFreeBytes : Obligations.RfConstructionMakesFreeBytes := by
  intro s agent port hfree
  refine ⟨_, Rf.construct s.draws, constructRf_eq hfree agent, by simp, fun n hn => by simp [hn], rfl, rfl, rfl,
    fun o ho => ?_⟩
  generalize ht : (s.putBlock port ⟨agent, .rf (Rf.construct s.draws), none⟩).constructed = t
  have hrf : State.rf { t with port := port } = some (Rf.construct s.draws) := by
    subst ht
    simp [State.rf, State.here, Block.rf]
  have reads {v : State} (hv : v.rf = some (Rf.construct s.draws)) : ∃ u r, exec (.rrdb o) v = .next u ∧
      u.response = some (.ok r) ∧ r.toNat = (Config.rfDraw s.draws o.toNat).toNat := by
    simpa using exec_rrdb_answers hv ho
  constructor
  · obtain ⟨u, r, hu, hr, hval⟩ := reads hrf
    exact ⟨u, r, hu, hr, hval, exec_rrdb_again hrf ho hu⟩
  · intro i v hv hi
    exact reads (exec_rf_of_not_writer hv hrf hi)

end Sys2Proof.Machine
end

section
/-! The act and the reply of each command, which its own unit and the files alone decide; so what the AM and the RF do
not share. -/

namespace Sys2Proof.Machine

/-! ### The AM cells and configuration under a command -/

/-- With an AM behind the port a command leaves it as it is, or writes a run of its cells. -/
theorem exec_am {i : Instr} {s t : State} {m : Am} (h : exec i s = .next t) (hm : s.am = some m) :
    t.am = some m ∨ ∃ a bytes, t.am = some (m.writeBytes a bytes) ∧ i.opcode ∈ [.mwr, .mfill, .mload] := by
  obtain ⟨e, rfl⟩ | ⟨r, rfl, -⟩ | ⟨x, x', -, rfl, -⟩ | ⟨m', a, bytes, hm', -, -, rfl, hi⟩ | ⟨text, r, rfl, -⟩ |
    ⟨g, sp, bytes, -, -, rfl⟩ := exec_next h
  case inr.inr.inr.inl =>
    cases hm.symm.trans hm'
    exact .inr ⟨a, bytes, by rw [State.reply_am, State.setAm_am hm], hi⟩
  all_goals exact .inl (by simpa using hm)

theorem Am.SameConfig.refl (m : Am) : m.SameConfig m := ⟨rfl, rfl, rfl⟩

theorem Am.sameConfig_writeBytes (m : Am) (a : Nat) (bytes : List Byte) : m.SameConfig (m.writeBytes a bytes) :=
  ⟨rfl, rfl, Memory.writeBytes_contents _ _ _⟩

/-! ### Acts -/

/-- The state with `f` applied to the AM behind the current port, if there is one. -/
def State.mapAm (s : State) (f : Am → Am) : State := s.am.elim s fun m => s.setAm (f m)

theorem State.mapAm_of_am {s : State} {m : Am} (h : s.am = some m) (f : Am → Am) : s.mapAm f = s.setAm (f m) := by
  rw [State.mapAm, h, Option.elim_some]

theorem State.mapAm_of_none {s : State} (h : s.am = none) (f : Am → Am) : s.mapAm f = s := by
  rw [State.mapAm, h, Option.elim_none]

/-- Applying `f` to the AM is no change or a replacement of the AM. -/
theorem State.mapAm_cases (s : State) (f : Am → Am) : s.mapAm f = s ∨ ∃ m, s.mapAm f = s.setAm m := by
  cases h : s.am with
  | none => exact .inl (State.mapAm_of_none h f)
  | some m => exact .inr ⟨f m, State.mapAm_of_am h f⟩

@[simp] theorem State.mapAm_am (s : State) (f : Am → Am) : (s.mapAm f).am = s.am.map f := by
  cases h : s.am with
  | none => rw [State.mapAm_of_none h, h, Option.map_none]
  | some m => rw [State.mapAm_of_am h, State.setAm_am h, Option.map_some]

@[simp] theorem State.mapAm_rf (s : State) (f : Am → Am) : (s.mapAm f).rf = s.rf := by
  obtain h | ⟨m, h⟩ := s.mapAm_cases f <;> simp [h]

@[simp] theorem State.mapAm_out (s : State) (f : Am → Am) : (s.mapAm f).out = s.out := by
  obtain h | ⟨m, h⟩ := s.mapAm_cases f <;> simp [h]

@[simp] theorem State.mapAm_files (s : State) (f : Am → Am) : (s.mapAm f).files = s.files := by
  obtain h | ⟨m, h⟩ := s.mapAm_cases f <;> simp [h]

@[simp] theorem State.mapAm_here_isSome (s : State) (f : Am → Am) : (s.mapAm f).here.isSome = s.here.isSome := by
  obtain h | ⟨m, h⟩ := s.mapAm_cases f <;> simp [h]

theorem State.setRf_rf_map (s : State) (x : Rf) : (s.setRf x).rf = s.rf.map fun _ => x := by
  rw [State.rf, State.setRf_here, State.rf]
  cases s.here <;> simp [Block.setRf_rf]

/-- What a command does before it replies. It speaks of no state, so the same act can be done in two of them. -/
inductive Act where
  | keep
  | putRf (x : Rf)
  | mapAm (f : Am → Am)
  | emit (text : List Char)
  | save (g : Half) (bytes : List Byte)

/-- The act performed in a state, by the updates that the commands themselves use. -/
def Act.apply : Act → State → State
  | .keep, s => s
  | .putRf x, s => s.setRf x
  | .mapAm f, s => s.mapAm f
  | .emit text, s => s.emit text
  | .save g bytes, s => s.setFile g bytes

/-- The text that an act appends. -/
def Act.text : Act → List Char
  | .emit text => text
  | _ => []

theorem Act.apply_out (a : Act) (s : State) : (a.apply s).out = s.out ++ a.text := by
  cases a <;> simp [Act.apply, Act.text]

theorem Act.apply_am_congr {s s' : State} (a : Act) (h : s'.am = s.am) : (a.apply s').am = (a.apply s).am := by
  cases a <;> simp [Act.apply, h]

theorem Act.apply_rf_congr {s s' : State} (a : Act) (h : s'.rf = s.rf) : (a.apply s').rf = (a.apply s).rf := by
  cases a <;> simp [Act.apply, State.setRf_rf_map, h]

theorem Act.apply_files_congr {s s' : State} (a : Act) (h : s'.files = s.files) :
    (a.apply s').files = (a.apply s).files := by
  cases a <;> simp [Act.apply, h]

/-- Where a block stands, the reply after an act is the response. -/
theorem Act.reply_response {s : State} (h : s.here.isSome) (a : Act) (r : Response) :
    ((a.apply s).reply r).response = some r := by
  have hkept : (a.apply s).here.isSome = s.here.isSome := by cases a <;> simp [Act.apply]
  exact State.reply_response (hkept.trans h) r

/-! ### What an act leaves at every port -/

/-- A change of the current port's block that keeps what `g` reads of it keeps what `g` reads at every port. -/
theorem State.modifyHere_bind {α : Type} {f : Block → Block} {g : Block → Option α} (hg : ∀ b, g (f b) = g b)
    (s : State) (n : Nat) : (Table.lookup n (s.modifyHere f).blocks).bind g = (Table.lookup n s.blocks).bind g := by
  rw [State.modifyHere, Table.lookup_modify]
  split
  · cases Table.lookup n s.blocks <;> simp [hg]
  · rfl

theorem State.reply_bind_am (s : State) (r : Response) (n : Nat) :
    (Table.lookup n (s.reply r).blocks).bind Block.am = (Table.lookup n s.blocks).bind Block.am :=
  State.modifyHere_bind (f := fun b => { b with response := some r }) (fun _ => rfl) s n

theorem State.reply_bind_rf (s : State) (r : Response) (n : Nat) :
    (Table.lookup n (s.reply r).blocks).bind Block.rf = (Table.lookup n s.blocks).bind Block.rf :=
  State.modifyHere_bind (f := fun b => { b with response := some r }) (fun _ => rfl) s n

/-- The act is no write of an RF. -/
def Act.SparesRf (a : Act) : Prop := ∀ x, a ≠ .putRf x

/-- The act is no write of an AM. -/
def Act.SparesAm (a : Act) : Prop := ∀ f, a ≠ .mapAm f

theorem Act.SparesRf.bind_rf {a : Act} (ha : a.SparesRf) (s : State) (n : Nat) :
    (Table.lookup n (a.apply s).blocks).bind Block.rf = (Table.lookup n s.blocks).bind Block.rf := by
  cases a with
  | putRf x => exact absurd rfl (ha x)
  | mapAm f =>
    obtain h | ⟨m, h⟩ := s.mapAm_cases f <;> rw [Act.apply, h]
    exact State.modifyHere_bind (fun b => b.setAm_rf m) s n
  | keep | emit | save => rfl

theorem Act.SparesAm.bind_am {a : Act} (ha : a.SparesAm) (s : State) (n : Nat) :
    (Table.lookup n (a.apply s).blocks).bind Block.am = (Table.lookup n s.blocks).bind Block.am := by
  cases a with
  | mapAm f => exact absurd rfl (ha f)
  | putRf x => exact State.modifyHere_bind (fun b => b.setRf_am x) s n
  | keep | emit | save => rfl

/-! ### A command's act and reply -/

/-- In every state of `S`, `k` does the same act, which has `P`, and gives the same reply. -/
def ActsAlike (P : Act → Prop) (S : State → Prop) (k : State → Result) : Prop :=
  ∃ a r, P a ∧ ∀ s, S s → k s = .next ((a.apply s).reply r)

section
variable {P : Act → Prop} {S : State → Prop}

theorem ActsAlike.congr {k k' : State → Result} (h : ActsAlike P S k) (he : ∀ s, S s → k' s = k s) :
    ActsAlike P S k' := by
  obtain ⟨a, r, ha, hk⟩ := h
  exact ⟨a, r, ha, fun s hs => (he s hs).trans (hk s hs)⟩

theorem ActsAlike.mono {k : State → Result} {S' : State → Prop} (h : ActsAlike P S k) (hs : ∀ s, S' s → S s) :
    ActsAlike P S' k := by
  obtain ⟨a, r, ha, hk⟩ := h
  exact ⟨a, r, ha, fun s hs' => hk s (hs s hs')⟩

theorem actsAlike_done {a : Act} (ha : P a) (r : RData) : ActsAlike P S fun s => done r (a.apply s) :=
  ⟨a, .ok r, ha, fun _ _ => rfl⟩

/-- A check that is the same in all states passes in all of them, or its error is the reply in all. -/
theorem actsAlike_orRaise {α : Type} (hkeep : P .keep) (c : Except Error α) {k : α → State → Result}
    (hk : ∀ v, ActsAlike P S (k v)) : ActsAlike P S fun s => orRaise c s (k · s) := by
  cases c with
  | ok v => exact hk v
  | error e => exact ⟨.keep, .error e, hkeep, fun _ _ => rfl⟩

end

/-- The states with these files and the AM `m` behind the current port. -/
def State.OnAm (m : Am) (files : List (Nat × List Byte)) (s : State) : Prop := s.am = some m ∧ s.files = files

/-- The states with these files and an AM of the configuration of `m`, whatever it stores. -/
def State.OnConfig (m : Am) (files : List (Nat × List Byte)) (s : State) : Prop :=
  ∃ mem, s.OnAm { m with mem := mem } files

section
variable {m : Am} {files : List (Nat × List Byte)}

/-- An answer that is a function of the configuration. -/
theorem actsAlike_configAnswer (r : Am → RData) (hr : ∀ mem, r { m with mem := mem } = r m) :
    ActsAlike Act.SparesRf (State.OnConfig m files) fun s => withAm s fun m' => done (r m') s := by
  refine ⟨.keep, .ok (r m), nofun, ?_⟩
  rintro s ⟨mem, hm, -⟩
  simp only [withAm_some hm, hr, done, Act.apply]

/-- A write of the AM behind a check of the configuration and the files. -/
theorem actsAlike_checkedWrite {α : Type} {check : Am → State → Except Error α} (c : Except Error α) (f : α → Am → Am)
    (hc : ∀ mem s, s.files = files → check { m with mem := mem } s = c) :
    ActsAlike Act.SparesRf (State.OnConfig m files) fun s =>
      withAm s fun m' => orRaise (check m' s) s fun v => done 0 (s.setAm (f v m')) := by
  have hmap : ActsAlike Act.SparesRf (State.OnConfig m files) fun s => orRaise c s fun v => done 0 (s.mapAm (f v)) :=
    actsAlike_orRaise nofun c fun v => actsAlike_done (a := .mapAm (f v)) nofun 0
  refine hmap.congr ?_
  rintro s ⟨mem, hm, hf⟩
  simp only [withAm_some hm, hc mem s hf, State.mapAm_of_am hm]

/-- A command that does not read the AM cells acts alike whatever they hold: its checks look at the configuration and
the files only. -/
theorem exec_actsAlike_of_not_reader {i : Instr} (hi : usesAm i = true) (hr : i.opcode ∉ [.mrd, .mdump, .msave]) :
    ActsAlike Act.SparesRf (State.OnConfig m files) (exec i) := by
  cases i with
  | mwr a v =>
    exact actsAlike_checkedWrite (check := fun m _ => address m a) (address m a) (fun n m => m.write n v)
      fun _ _ _ => rfl
  | mfill v sp =>
    exact actsAlike_checkedWrite (check := fun m _ => span m sp) (span m sp)
      (fun r m => m.writeBytes r.1 (List.replicate (r.2 + 1 - r.1) v)) fun _ _ _ => rfl
  | mload g =>
    exact actsAlike_checkedWrite (check := fun m s => imageFile (s.file g) g m.cap)
      (imageFile (Table.lookup g.toNat files) g m.cap) (fun bytes m => m.writeBytes m.base.toNat bytes)
      fun _ _ hf => hf ▸ rfl
  | mbegin => exact actsAlike_configAnswer (fun m => zextWord m.base) fun _ => rfl
  | mend => exact actsAlike_configAnswer (fun m => BitVec.ofNat 32 m.last) fun _ => rfl
  | msize => exact actsAlike_configAnswer (fun m => BitVec.ofNat 32 m.cap) fun _ => rfl
  | mrd | mdump | msave => simp [Instr.opcode] at hr
  | _ => simp [usesAm, Instr.opcode, Opcode.bits] at hi

/-- An AM command's act and reply depend on the AM behind the port and the files alone. -/
theorem exec_actsAlike_of_am {i : Instr} (hi : usesAm i = true) :
    ActsAlike Act.SparesRf (State.OnAm m files) (exec i) := by
  by_cases hr : i.opcode ∉ [.mrd, .mdump, .msave]
  · exact (exec_actsAlike_of_not_reader hi hr).mono fun s hs => ⟨m.mem, hs⟩
  have keep : Act.keep.SparesRf := nofun
  have onUnit {k : Am → State → Result} (hk : ActsAlike Act.SparesRf (State.OnAm m files) (k m)) :
      ActsAlike Act.SparesRf (State.OnAm m files) fun s => withAm s (k · s) :=
    hk.congr fun s hs => withAm_some hs.1 _
  cases i with
  | mrd a => exact onUnit (actsAlike_orRaise keep (address m a) fun n => actsAlike_done keep _)
  | mdump sp =>
    exact onUnit (actsAlike_orRaise keep (span m sp) fun r => actsAlike_done (a := .emit (dumpText m r.1 r.2)) nofun 0)
  | msave g sp =>
    obtain ⟨c, fresh⟩ : ∃ c, ∀ s, State.OnAm m files s → freshFile s g = c :=
      ⟨if (Table.lookup g.toNat files).isSome then .error (.fileAlreadyExists g) else .ok (),
        fun s hs => by rw [freshFile, State.file, hs.2]⟩
    have save (r : Nat × Nat) : ActsAlike Act.SparesRf (State.OnAm m files) fun s => orRaise c s fun _ =>
        done 0 (s.setFile g (m.bytes r.1 r.2)) :=
      actsAlike_orRaise keep c fun _ => actsAlike_done (a := .save g (m.bytes r.1 r.2)) nofun 0
    refine onUnit (actsAlike_orRaise keep (span m sp) fun r => (save r).congr fun s hs => ?_)
    rw [fresh s hs]
  | _ => simp [Instr.opcode] at hr

end

/-- An RF command's act and reply depend on the RF behind the port alone. -/
theorem exec_actsAlike_of_rf {i : Instr} (hi : usesAm i = false) (x : Rf) :
    ActsAlike Act.SparesAm (fun s => s.rf = some x) (exec i) := by
  have keep : Act.keep.SparesAm := nofun
  have onUnit {k : Rf → State → Result} (hk : ActsAlike Act.SparesAm (fun s => s.rf = some x) (k x)) :
      ActsAlike Act.SparesAm (fun s => s.rf = some x) fun s => withRf s (k · s) :=
    hk.congr fun s hs => withRf_some hs _
  have write (x' : Rf) : ActsAlike Act.SparesAm (fun s => s.rf = some x) fun s => done 0 (s.setRf x') :=
    actsAlike_done (a := .putRf x') nofun 0
  cases i with
  | rrdb o => exact onUnit (actsAlike_orRaise keep (byteOffset o) fun p => actsAlike_done keep _)
  | rrdw o => exact onUnit (actsAlike_orRaise keep (wordOffset o) fun p => actsAlike_done keep _)
  | rwrb o v => exact onUnit (actsAlike_orRaise keep (byteOffset o) fun p => write _)
  | rwrw o v => exact onUnit (actsAlike_orRaise keep (wordOffset o) fun p => write _)
  | rgetf f => exact onUnit (actsAlike_done keep _)
  | rsetf f | rclrf f => exact onUnit (write _)
  | rdumpf => exact onUnit (actsAlike_done (a := .emit _) nofun _)
  | _ => simp [usesAm, Instr.opcode, Opcode.bits] at hi

/-! ### The two units -/

theorem hasUnit_of_exec {i : Instr} {s t : State} (h : exec i s = .next t) : s.hasUnit i := by
  refine Classical.byContradiction fun hn => ?_
  cases h.symm.trans (exec_noUnit hn)

theorem exists_am_of_exec {i : Instr} {s t : State} (h : exec i s = .next t) (hi : usesAm i = true) :
    ∃ m, s.am = some m := by
  simpa [State.hasUnit, hi, Option.isSome_iff_exists] using hasUnit_of_exec h

theorem exists_rf_of_exec {i : Instr} {s t : State} (h : exec i s = .next t) (hi : usesAm i = false) :
    ∃ x, s.rf = some x := by
  simpa [State.hasUnit, hi, Option.isSome_iff_exists] using hasUnit_of_exec h

/-- Behind a port there is an AM or an RF, never both. -/
theorem State.rf_eq_none_of_am {s : State} {m : Am} (h : s.am = some m) : s.rf = none := by
  obtain ⟨b, hb, ha⟩ := State.here_of_am h
  rw [State.rf, hb, Option.bind_some, ← Option.not_isSome_iff_eq_none, Block.rf_isSome, ha]
  simp

theorem usesAm_of_exec_am {i : Instr} {s t : State} {m : Am} (h : exec i s = .next t) (hm : s.am = some m) :
    usesAm i = true := by
  cases hi : usesAm i with
  | true => rfl
  | false =>
    obtain ⟨x, hx⟩ := exists_rf_of_exec h hi
    cases (State.rf_eq_none_of_am hm).symm.trans hx

/-- Settles O33: only a run of cell writes changes the AM, and a command that is no reader acts alike on any storage. -/
theorem onlyAmWritersChangeCells : Obligations.OnlyAmWritersChangeCells := by
  constructor
  · intro i s t m h hm
    obtain ht | ⟨a, bytes, ht, hi⟩ := exec_am h hm
    · exact ⟨m, ht, .refl m, fun k hk => absurd rfl hk⟩
    · exact ⟨_, ht, m.sameConfig_writeBytes a bytes, fun _ _ => hi⟩
  · intro i s m mem hm hr t h
    obtain ⟨a, r, -, hk⟩ := exec_actsAlike_of_not_reader (m := m) (files := s.files) (usesAm_of_exec_am h hm) hr
    have hm' : (s.setAm { m with mem := mem }).am = some { m with mem := mem } := State.setAm_am hm _
    cases h.symm.trans (hk s ⟨m.mem, hm, rfl⟩)
    refine ⟨_, hk _ ⟨mem, hm', rfl⟩, ?_, ?_, ?_, ?_⟩
    · rw [Act.reply_response (State.here_isSome_of_am hm'), Act.reply_response (State.here_isSome_of_am hm)]
    · simp [Act.apply_out]
    · exact a.apply_files_congr (State.setAm_files s _)
    · simpa using a.apply_rf_congr (State.setAm_rf s _)

/-- Settles O36: a command spares the other unit, and acts alike in every state that its own unit (and, for the AM, the
files) agree with. -/
theorem unitsShareNothing : Obligations.UnitsShareNothing := by
  refine fun i s t h => ⟨fun hi => ?_, fun hi => ?_⟩
  · obtain ⟨x, hx⟩ := exists_rf_of_exec h hi
    obtain ⟨a, r, ha, hk⟩ := exec_actsAlike_of_rf hi x
    cases h.symm.trans (hk s hx)
    refine ⟨fun n => (State.reply_bind_am _ r n).trans (ha.bind_am s n), fun s' hs' => ?_⟩
    have hx' : s'.rf = some x := hs'.trans hx
    refine ⟨_, a.text, hk s' hx', ?_, ?_, a.apply_out s, a.apply_out s'⟩
    · simpa using a.apply_rf_congr hs'
    · rw [Act.reply_response (State.here_isSome_of_rf hx), Act.reply_response (State.here_isSome_of_rf hx')]
  · obtain ⟨m, hm⟩ := exists_am_of_exec h hi
    obtain ⟨a, r, ha, hk⟩ := exec_actsAlike_of_am (m := m) (files := s.files) hi
    cases h.symm.trans (hk s ⟨hm, rfl⟩)
    refine ⟨fun n => (State.reply_bind_rf _ r n).trans (ha.bind_rf s n), fun s' hs' hf => ?_⟩
    have hm' : s'.am = some m := hs'.trans hm
    refine ⟨_, a.text, hk s' ⟨hm', hf⟩, ?_, ?_, ?_, a.apply_out s, a.apply_out s'⟩
    · simpa using a.apply_am_congr hs'
    · exact a.apply_files_congr hf
    · rw [Act.reply_response (State.here_isSome_of_am hm), Act.reply_response (State.here_isSome_of_am hm')]

end Sys2Proof.Machine
end

section
/-! What performing a request changes and whether it has a step; so which request a step takes, and what waits. -/

namespace Sys2Proof.Machine

/-! ### Command words -/

theorem asOwner_noBlock {port : Nat} {s : State} (h : Table.lookup port s.blocks = none) (agent : Nat)
    (k : Block → Result) : asOwner agent port s k = .fault .noBlock := by
  simp [asOwner, h]

/-- A legal command word of the owner runs as its command at its port. -/
theorem command_legal {port : Nat} {w : CmdWord} {s : State} {b : Block} {i : Instr}
    (hb : Table.lookup port s.blocks = some b) (hw : decode w = .ok i) :
    command b.owner port w s = exec i { s with port := port } := by
  rw [command, asOwner_eq hb rfl, hw]

/-- An illegal one is answered so, whatever it asks for. -/
theorem command_illegal {port : Nat} {w : CmdWord} {s : State} {b : Block} {e : DecodeError}
    (hb : Table.lookup port s.blocks = some b) (hw : decode w = .error e) :
    command b.owner port w s = raise (.illegalCommand w) { s with port := port } := by
  rw [command, asOwner_eq hb rfl, hw]

/-- Settles O6: with its unit the command answers, so the oldest request is the one performed. -/
theorem stepRunsDecodedCommand : Obligations.StepRunsDecodedCommand := by
  rintro s agent port w rest b i hi hb rfl hw hu
  have hu' : State.hasUnit { s with inbox := rest, port := port } i := hu
  obtain ⟨t, ht⟩ := exec_answers hu'
  have hp : perform (.command b.owner port w) { s with inbox := rest } = .next t :=
    (command_legal (s := { s with inbox := rest }) hb hw).trans ht
  rw [step_oldest hi hp, ht]

/-! ### Destruction and the host's files -/

/-- Settles O50: erasing a port's entry leaves the others, and a port without an entry has no step. -/
theorem destroyedInstanceIsUnreachable : Obligations.DestroyedInstanceIsUnreachable := by
  intro s port b hb
  exact ⟨_, asOwner_eq hb rfl _, Table.lookup_erase_same port _, fun n hn => by rw [Table.lookup_erase, if_neg hn],
    rfl, rfl, fun agent w => asOwner_noBlock (Table.lookup_erase_same port _) agent _⟩

/-- A file removed is absent, and every other handle is as before (20_memory.md R60). -/
theorem State.file_eraseFile (s : State) (h k : Half) :
    State.file { s with files := Table.erase h.toNat s.files } k = if k = h then none else s.file k := by
  simp only [State.file, Table.lookup_erase, BitVec.toNat_inj]

/-- Settles O51: the table is written at the handle, or the handle is erased from it. -/
theorem hostChangesOneFile : Obligations.HostChangesOneFile := by
  intro s h content
  cases content with
  | some bytes =>
    exact ⟨_, rfl, by rw [State.file_setFile, if_pos rfl], fun g hg => by rw [State.file_setFile, if_neg hg],
      rfl, rfl, rfl, rfl, rfl, rfl⟩
  | none =>
    exact ⟨_, rfl, by rw [State.file_eraseFile, if_pos rfl], fun g hg => by rw [State.file_eraseFile, if_neg hg],
      rfl, rfl, rfl, rfl, rfl, rfl⟩

/-! ### What performing a request leaves alone -/

/-- A command changes nothing outside the block it is for. -/
theorem exec_sameOutside {i : Instr} {s t : State} (h : exec i s = .next t) : s.SameOutside t := by
  obtain ⟨u, r, rfl, hout, -⟩ := exec_next_reply h
  exact hout.trans (State.sameOutside_reply u r)

/-- A request changes neither what waits nor the block at any other port. -/
theorem perform_frame {r : Request} {s t : State} (h : perform r s = .next t) :
    t.inbox = s.inbox ∧ ∀ n, r.port ≠ some n → Table.lookup n t.blocks = Table.lookup n s.blocks := by
  have here {port n : Nat} (hn : some port ≠ some n) : n ≠ port := fun e => hn (congrArg some e.symm)
  obtain ⟨port, w, b, rfl, -, hc⟩ | ⟨agent, port, cfg, rfl, -, hc⟩ | ⟨agent, port, rfl, -, rfl⟩ |
    ⟨port, b, rfl, -, rfl⟩ | ⟨port, new, b, rfl, -, rfl⟩ | ⟨g, bytes, -, rfl⟩ | ⟨g, -, rfl⟩ := perform_next h
  · have hout : State.SameOutside { s with port := port } t := by
      obtain ⟨i, -, hx⟩ | ⟨e, -, rfl⟩ := hc
      · exact exec_sameOutside hx
      · exact State.sameOutside_reply _ _
    obtain ⟨hothers, -, -, hinbox, -⟩ := hout
    exact ⟨hinbox, fun n hn => hothers n (here hn)⟩
  · obtain ⟨c, -, -, rfl⟩ | ⟨e, -, -, rfl⟩ | ⟨-, rfl⟩ := hc
    · exact ⟨rfl, fun n hn => by simp [here hn]⟩
    · exact ⟨rfl, fun _ _ => rfl⟩
    · exact ⟨rfl, fun _ _ => rfl⟩
  · exact ⟨rfl, fun n hn => by simp [here hn]⟩
  · exact ⟨rfl, fun n hn => by rw [Table.lookup_erase, if_neg (here hn)]⟩
  · exact ⟨rfl, fun n hn => by simp [here hn]⟩
  · exact ⟨rfl, fun _ _ => rfl⟩
  · exact ⟨rfl, fun _ _ => rfl⟩

/-- Settles O37: a step performs one waiting request, which leaves the other ports and what waits alone. -/
theorem otherBlocksAreUntouched : Obligations.OtherBlocksAreUntouched := by
  intro s t h
  obtain hidle | ⟨pre, r, rest, hi, ha, hp⟩ := step_next h
  · exact .inl hidle
  · obtain ⟨hinbox, hblocks⟩ := perform_frame hp
    exact .inr ⟨pre, r, rest, hi, ha, hp, hinbox, hblocks⟩

/-! ### Whether a request has a step -/

/-- With the table `blocks`, `k` is one fault in every state, or answers in every state. -/
def DecidedBy (blocks : List (Nat × Block)) (k : State → Result) : Prop :=
  (∃ f, ∀ s, s.blocks = blocks → k s = .fault f) ∨ ∀ s, s.blocks = blocks → ∃ t, k s = .next t

section
variable {blocks : List (Nat × Block)}

theorem decidedBy_asOwner {agent port : Nat} {k : State → Block → Result}
    (hk : ∀ b, Table.lookup port blocks = some b → DecidedBy blocks (k · b)) :
    DecidedBy blocks fun s => asOwner agent port s (k s) := by
  cases hb : Table.lookup port blocks with
  | none => exact .inl ⟨.noBlock, fun s hs => asOwner_noBlock (hs ▸ hb) agent _⟩
  | some b =>
    by_cases ho : b.owner = agent
    · have run {s : State} (hs : s.blocks = blocks) : asOwner agent port s (k s) = k s b := asOwner_eq (hs ▸ hb) ho _
      obtain ⟨f, hf⟩ | ht := hk b hb
      · exact .inl ⟨f, fun s hs => (run hs).trans (hf s hs)⟩
      · exact .inr fun s hs => (ht s hs).imp fun t h => (run hs).trans h
    · exact .inl ⟨.notOwner, fun s hs => asOwner_notOwner (hs ▸ hb) ho _⟩

theorem decidedBy_atFreePort {port : Nat} {k : State → Result} (hk : ∀ s, ∃ t, k s = .next t) :
    DecidedBy blocks fun s => atFreePort port s (k s) := by
  cases hb : Table.lookup port blocks with
  | none => exact .inr fun s hs => (hk s).imp fun t h => (atFreePort_eq (hs ▸ hb) _).trans h
  | some b => exact .inl ⟨.unitExists, fun s hs => atFreePort_live (hs ▸ hb) _⟩

/-- The block at the port says which units stand there. -/
theorem State.units_congr {s s' : State} (h : s'.here = s.here) : s'.am = s.am ∧ s'.rf = s.rf := by
  simp only [State.am, State.rf, h, and_self]

theorem State.hasUnit_congr {s s' : State} (ha : s'.am = s.am) (hr : s'.rf = s.rf) (i : Instr) :
    s'.hasUnit i ↔ s.hasUnit i := by
  rw [State.hasUnit, State.hasUnit, ha, hr]

theorem decidedBy_exec (i : Instr) (port : Nat) : DecidedBy blocks fun s => exec i { s with port := port } := by
  by_cases hu : ∃ s : State, s.blocks = blocks ∧ State.hasUnit { s with port := port } i
  · obtain ⟨s₀, hs₀, hu⟩ := hu
    refine .inr fun s hs => exec_answers ?_
    have hhere : State.here { s with port := port } = State.here { s₀ with port := port } :=
      congrArg (Table.lookup port) (hs.trans hs₀.symm)
    obtain ⟨ham, hrf⟩ := State.units_congr hhere
    exact (State.hasUnit_congr ham hrf i).mpr hu
  · exact .inl ⟨.noUnit, fun s hs => exec_noUnit fun h => hu ⟨s, hs, h⟩⟩

/-- Whether a request has a step, and the fault where it has none, depend on the blocks alone. -/
theorem perform_decidedBy (r : Request) (blocks : List (Nat × Block)) : DecidedBy blocks (perform r) := by
  cases r with
  | command agent port w =>
    refine decidedBy_asOwner fun b _ => ?_
    cases decode w with
    | ok i => exact decidedBy_exec i port
    | error e => exact .inr fun s _ => ⟨_, rfl⟩
  | constructAm agent port cfg =>
    refine decidedBy_atFreePort fun s => ?_
    split
    · split
      · exact ⟨_, rfl⟩
      · exact ⟨_, rfl⟩
    · exact ⟨_, rfl⟩
  | constructRf agent port => exact decidedBy_atFreePort fun s => ⟨_, rfl⟩
  | destroy agent port => exact decidedBy_asOwner fun b _ => .inr fun s _ => ⟨_, rfl⟩
  | handOver agent port new => exact decidedBy_asOwner fun b _ => .inr fun s _ => ⟨_, rfl⟩
  | hostFile g content => cases content <;> exact .inr fun s _ => ⟨_, rfl⟩

end

/-- A request without a step has none, by the same fault, whatever waits. -/
theorem perform_fault_inbox {r : Request} {s : State} {f : Fault} (h : perform r s = .fault f) (l : List Request) :
    perform r { s with inbox := l } = .fault f := by
  obtain ⟨g, hg⟩ | ht := perform_decidedBy r s.blocks
  · exact (hg { s with inbox := l } rfl).trans ((hg s rfl).symm.trans h)
  · obtain ⟨t, ht⟩ := ht s rfl
    cases h.symm.trans ht

/-- Where a request gives no next state it has no step: nothing is refused. -/
theorem Request.stuck_of_not_next {r : Request} {s : State} (h : ∀ t, perform r s ≠ .next t) : r.Stuck s := by
  obtain ⟨f, hf⟩ | ht := perform_decidedBy r s.blocks
  · exact ⟨f, hf s rfl⟩
  · obtain ⟨t, ht⟩ := ht s rfl
    exact absurd ht (h t)

/-! ### Which request a step takes -/

/-- Requests that have no step or stand behind one of their own agent are passed over. -/
theorem takeFirst_heldUp {s : State} {passed held l : List Request}
    (h : ∀ pre q rest, held = pre ++ q :: rest → q.Stuck s ∨ q.agent ∈ (passed ++ pre).map Request.agent) :
    takeFirst s passed (held ++ l) = takeFirst s (passed ++ held) l := by
  induction held generalizing passed with
  | nil => simp
  | cons q held ih =>
    have hnext : takeFirst s (passed ++ [q]) (held ++ l) = takeFirst s (passed ++ q :: held) l := by
      rw [ih fun pre p rest e => by simpa using h (q :: pre) p rest (by rw [e, List.cons_append]), List.append_assoc,
        List.singleton_append]
    rw [List.cons_append, ← hnext]
    obtain ⟨f, hf⟩ | ha := h [] q held rfl
    · exact takeFirst_stuck (perform_fault_inbox hf _)
    · exact takeFirst_behind (by simpa using ha)

theorem step_of_takeFirst {s t : State} (h : takeFirst s [] s.inbox = some t) : step s = .next t := by
  unfold step
  cases hi : s.inbox with
  | nil => simp [hi, takeFirst] at h
  | cons r rest => simp only [← hi, h]

/-- The oldest request that is not held up is performed. -/
theorem step_of_heldUp {s t : State} {pre rest : List Request} {r : Request} (hi : s.inbox = pre ++ r :: rest)
    (hpre : s.HeldUp pre) (ha : r.agent ∉ pre.map Request.agent)
    (h : perform r { s with inbox := pre ++ rest } = .next t) : step s = .next t := by
  apply step_of_takeFirst
  rw [hi, takeFirst_heldUp (passed := []) hpre]
  exact takeFirst_takes ha h

/-- A step is a fault where each request that waits is held up: the fault of the oldest. -/
theorem step_fault_iff (s : State) (f : Fault) :
    step s = .fault f ↔ ∃ r rest, s.inbox = r :: rest ∧ s.HeldUp s.inbox ∧ perform r s = .fault f := by
  constructor
  · intro h
    unfold step at h
    split at h
    · cases h
    · rename_i r rest hi
      split at h
      · cases h
      · rename_i hnone
        refine ⟨r, rest, hi, fun pre q post e => ?_, perform_fault_inbox h s.inbox⟩
        obtain ha | hn := takeFirst_none hnone (hi ▸ e)
        · exact .inr ha
        · obtain ⟨g, hg⟩ := Request.stuck_of_not_next hn
          exact .inl ⟨g, perform_fault_inbox hg s.inbox⟩
  · rintro ⟨r, rest, hi, hheld, hf⟩
    have hnone : takeFirst s [] (r :: rest) = none := by
      rw [← hi, ← List.append_nil s.inbox, takeFirst_heldUp (passed := []) hheld]
      rfl
    simp only [step, hi]
    rw [hnone]
    exact perform_fault_inbox hf rest

/-- Settles O56: held-up requests are passed over, and where no other waits the step is what performing the oldest is. -/
theorem stuckRequestsHoldUpNoOtherAgent : Obligations.StuckRequestsHoldUpNoOtherAgent :=
  ⟨fun _ _ _ _ _ hi hpre ha h => ⟨step_of_heldUp hi hpre ha h, (perform_frame h).1⟩, step_fault_iff⟩

/-! ### Another agent's command word, and hand over -/

/-- A request that has no step goes on waiting after a step. -/
theorem mem_inbox_of_step {r : Request} {s t : State} (hr : r.Stuck s) (h : step s = .next t) (hi : r ∈ s.inbox) :
    r ∈ t.inbox := by
  obtain ⟨-, rfl⟩ | ⟨pre, q, rest, hs, -, hp⟩ := step_next h
  · exact hi
  · obtain ⟨f, hf⟩ := hr
    have hne : r ≠ q := by
      rintro rfl
      cases hp.symm.trans (perform_fault_inbox hf _)
    obtain ⟨hinbox, -⟩ := perform_frame hp
    rw [hinbox]
    simpa [hs, hne] using hi

/-- A request without a step that waits alone stops the machine. -/
theorem step_alone_fault {r : Request} {s : State} {f : Fault} (hi : s.inbox = [r]) (hf : perform r s = .fault f) :
    step s = .fault f := by
  refine (step_fault_iff s f).mpr ⟨r, [], hi, fun pre q rest e => .inl ?_, hf⟩
  have hq : q ∈ s.inbox := by simp [e]
  obtain rfl : q = r := by simpa [hi] using hq
  exact ⟨f, hf⟩

/-- Settles O39: a word of another agent is the fault notOwner, and a hand over exchanges the agents. -/
theorem secondAgentIsStuck : Obligations.SecondAgentIsStuck := by
  constructor
  · intro s agent port w b hb ho
    have hf : perform (.command agent port w) s = .fault .notOwner := asOwner_notOwner hb ho _
    exact ⟨hf, fun t ht hi => mem_inbox_of_step ⟨_, hf⟩ ht hi, fun hi => step_alone_fault hi hf⟩
  · intro s port new b hb
    have hnew : Table.lookup port (s.putBlock port { b with owner := new }).blocks = some { b with owner := new } := by
      simp
    exact ⟨_, asOwner_eq hb rfl _, hnew, fun w i hw => command_legal hnew hw,
      fun w ho => asOwner_notOwner hnew ho.symm _⟩

end Sys2Proof.Machine
end

section
/-! Which commands emit text and write files, what reads leave, and that a command sees only its own block and the
files. -/

namespace Sys2Proof.Machine

/-! ### Text, files and units under a command -/

/-- A command appends text only if it is a dump. -/
theorem exec_out {i : Instr} {s t : State} (h : exec i s = .next t) :
    t.out = s.out ∨ (i.opcode ∈ [.mdump, .rdumpf] ∧ ∃ text, t.out = s.out ++ text) := by
  obtain ⟨e, rfl⟩ | ⟨r, rfl, -⟩ | ⟨x, x', -, rfl, -⟩ | ⟨m, a, bytes, -, -, -, rfl, -⟩ | ⟨text, r, rfl, hi⟩ |
    ⟨g, sp, bytes, -, -, rfl⟩ := exec_next h
  case inr.inr.inr.inr.inl => exact .inr ⟨hi, text, rfl⟩
  all_goals exact .inl rfl

/-- A command writes a file only if it is MSAVE of an absent one. -/
theorem exec_files {i : Instr} {s t : State} (h : exec i s = .next t) :
    t.files = s.files ∨ ∃ g sp bytes, i = .msave g sp ∧ s.file g = none ∧ t.files = (s.setFile g bytes).files := by
  obtain ⟨e, rfl⟩ | ⟨r, rfl, -⟩ | ⟨x, x', -, rfl, -⟩ | ⟨m, a, bytes, -, -, -, rfl, -⟩ | ⟨text, r, rfl, -⟩ |
    ⟨g, sp, bytes, hi, hg, rfl⟩ := exec_next h
  case inr.inr.inr.inr.inr => exact .inr ⟨g, sp, bytes, hi, hg, rfl⟩
  all_goals exact .inl rfl

/-- Settles O34: text grows by the dumps alone, and of the files MSAVE's own alone changes. -/
theorem onlyDumpsEmitAndOnlyMsaveWritesFiles : Obligations.OnlyDumpsEmitAndOnlyMsaveWritesFiles := by
  intro i s t h
  refine ⟨?_, fun hne => ?_, fun k hk => ?_⟩
  · obtain hout | ⟨-, hout⟩ := exec_out h
    · exact ⟨[], by rw [hout, List.append_nil]⟩
    · exact hout
  · obtain hout | ⟨hi, -⟩ := exec_out h
    · exact absurd hout hne
    · simpa using hi
  · obtain hf | ⟨g, sp, bytes, rfl, hg, hf⟩ := exec_files h
    · exact absurd (congrArg (Table.lookup k.toNat) hf) hk
    · have hfile : t.file k = if k = g then some bytes else s.file k := by
        rw [← State.file_setFile, State.file, hf, State.file]
      obtain rfl : k = g := Decidable.byContradiction fun hne => hk (by rw [hfile, if_neg hne])
      exact ⟨hg, sp, rfl⟩

theorem RfWrite.opcode_mem {i : Instr} {x x' : Rf} (h : RfWrite i x x') :
    i.opcode ∈ [.rwrb, .rwrw, .rsetf, .rclrf] := by
  obtain ⟨o, v, p, rfl, -⟩ | ⟨o, v, p, rfl, -⟩ | ⟨f, rfl, -⟩ | ⟨f, rfl, -⟩ := h <;> simp [Instr.opcode]

/-- A command that writes neither store leaves both units as they are. -/
theorem exec_units_of_not_writer {i : Instr} {s t : State} (h : exec i s = .next t)
    (hrf : i.opcode ∉ [.rwrb, .rwrw, .rsetf, .rclrf]) (ham : i.opcode ∉ [.mwr, .mfill, .mload]) :
    t.am = s.am ∧ t.rf = s.rf := by
  obtain ⟨e, rfl⟩ | ⟨r, rfl, -⟩ | ⟨x, x', -, rfl, hw⟩ | ⟨m, a, bytes, -, -, -, rfl, hi⟩ | ⟨text, r, rfl, -⟩ |
    ⟨g, sp, bytes, -, -, rfl⟩ := exec_next h
  case inr.inr.inl => exact absurd hw.opcode_mem hrf
  case inr.inr.inr.inl => exact absurd hi ham
  all_goals exact ⟨by simp, by simp⟩

/-- A read does nothing but reply. -/
theorem exec_read {i : Instr} {s t : State} (h : exec i s = .next t)
    (hi : i.opcode ∈ [.mrd, .rrdb, .rrdw, .rgetf, .mbegin, .mend, .msize]) : ∃ r, t = s.reply r := by
  obtain ⟨hrf, ham, hdump⟩ : i.opcode ∉ [.rwrb, .rwrw, .rsetf, .rclrf] ∧ i.opcode ∉ [.mwr, .mfill, .mload] ∧
      i.opcode ∉ [.mdump, .rdumpf] := by
    cases i <;> simp [Instr.opcode] at hi ⊢
  obtain ⟨e, ht⟩ | ⟨r, ht, -⟩ | ⟨x, x', -, -, hw⟩ | ⟨m, a, bytes, -, -, -, -, ho⟩ | ⟨text, r, -, ho⟩ |
    ⟨g, sp, bytes, rfl, -⟩ := exec_next h
  · exact ⟨_, ht⟩
  · exact ⟨_, ht⟩
  · exact absurd hw.opcode_mem hrf
  · exact absurd ho ham
  · exact absurd ho hdump
  · simp [Instr.opcode] at hi

/-! ### The act of a command, by the units and the files -/

/-- A command that has its unit does one act and gives one reply in every state with the same units and files. -/
theorem exec_acts {i : Instr} {s : State} (hu : s.hasUnit i) :
    ∃ (a : Act) (r : Response), ∀ s', s'.am = s.am → s'.rf = s.rf → s'.files = s.files →
      exec i s' = .next ((a.apply s').reply r) := by
  cases hi : usesAm i with
  | true =>
    obtain ⟨m, hm⟩ : ∃ m, s.am = some m := by simpa [State.hasUnit, hi, Option.isSome_iff_exists] using hu
    obtain ⟨a, r, -, hk⟩ := exec_actsAlike_of_am (m := m) (files := s.files) hi
    exact ⟨a, r, fun s' ha _ hf => hk s' ⟨ha.trans hm, hf⟩⟩
  | false =>
    obtain ⟨x, hx⟩ : ∃ x, s.rf = some x := by simpa [State.hasUnit, hi, Option.isSome_iff_exists] using hu
    obtain ⟨a, r, -, hk⟩ := exec_actsAlike_of_rf hi x
    exact ⟨a, r, fun s' _ hr _ => hk s' (hr.trans hx)⟩

/-! ### No command sees the response that stands -/

theorem State.modifyHere_modifyHere (s : State) (f g : Block → Block) :
    (s.modifyHere f).modifyHere g = s.modifyHere (g ∘ f) := by
  simp only [State.modifyHere, Table.modify_modify]

theorem State.setRf_reply (s : State) (r : Response) (x : Rf) : (s.reply r).setRf x = (s.setRf x).reply r := by
  simp only [State.setRf, State.reply, State.modifyHere_modifyHere]
  congr 1
  funext ⟨owner, store, response⟩
  cases store <;> rfl

theorem State.setAm_reply (s : State) (r : Response) (m : Am) : (s.reply r).setAm m = (s.setAm m).reply r := by
  simp only [State.setAm, State.reply, State.modifyHere_modifyHere]
  congr 1
  funext ⟨owner, store, response⟩
  cases store <;> rfl

theorem State.mapAm_reply (s : State) (r : Response) (f : Am → Am) :
    (s.reply r).mapAm f = (s.mapAm f).reply r := by
  cases h : s.am with
  | none => rw [State.mapAm_of_none h, State.mapAm_of_none (by rw [State.reply_am, h])]
  | some m => rw [State.mapAm_of_am h, State.mapAm_of_am (by rw [State.reply_am, h]), State.setAm_reply]

/-- An act neither reads nor writes the response. -/
theorem Act.apply_reply (a : Act) (s : State) (r : Response) : a.apply (s.reply r) = (a.apply s).reply r := by
  cases a with
  | putRf x => exact s.setRf_reply r x
  | mapAm f => exact s.mapAm_reply r f
  | keep | emit | save => rfl

/-- A command answers what it would answer without the response that stands (60_exceptions.md R161). -/
theorem exec_reply (i : Instr) (s : State) (r : Response) : exec i (s.reply r) = exec i s := by
  by_cases hu : s.hasUnit i
  · obtain ⟨a, q, hk⟩ := exec_acts hu
    rw [hk s rfl rfl rfl, hk (s.reply r) (s.reply_am r) (s.reply_rf r) rfl, a.apply_reply, State.reply_reply]
  · have hu' : ¬(s.reply r).hasUnit i := by rwa [State.hasUnit_congr (s.reply_am r) (s.reply_rf r)]
    rw [exec_noUnit hu, exec_noUnit hu']

/-- Settles O35: a read only replies, and what it replies does not depend on the reply before; of the others, dumps
append and MSAVE saves. -/
theorem readsHaveNoSideEffects : Obligations.ReadsHaveNoSideEffects := by
  refine fun i s t h => ⟨fun hi => ?_, fun hi => ?_, fun hi => ?_⟩
  · obtain ⟨r, rfl⟩ := exec_read h hi
    exact ⟨s.onlyResponse_reply r, (exec_reply i s r).trans h⟩
  · obtain ⟨ham, hrf⟩ : t.am = s.am ∧ t.rf = s.rf := by
      obtain ho | ho : i.opcode = .mdump ∨ i.opcode = .rdumpf := by simpa using hi
      all_goals exact exec_units_of_not_writer h (by simp [ho]) (by simp [ho])
    have hfiles : t.files = s.files := by
      obtain hf | ⟨g, sp, bytes, rfl, -⟩ := exec_files h
      · exact hf
      · simp [Instr.opcode] at hi
    obtain ⟨htext, -⟩ := onlyDumpsEmitAndOnlyMsaveWritesFiles i s t h
    exact ⟨ham, hrf, hfiles, exec_sameOutside h, htext⟩
  · obtain ⟨ham, hrf⟩ : t.am = s.am ∧ t.rf = s.rf :=
      exec_units_of_not_writer h (by simp [hi]) (by simp [hi])
    obtain hout | ⟨ho, -⟩ := exec_out h
    · exact ⟨ham, hrf, hout, exec_sameOutside h⟩
    · simp [hi] at ho

/-! ### A command sees only its own block and the files -/

theorem Act.apply_port (a : Act) (s : State) : (a.apply s).port = s.port := by
  cases a with
  | mapAm f => obtain h | ⟨m, h⟩ := s.mapAm_cases f <;> simp [Act.apply, h]
  | _ => rfl

/-- What an act leaves in the block at the port depends on that block alone. -/
theorem Act.apply_here_congr {s s' : State} (a : Act) (h : s'.here = s.here) :
    (a.apply s').here = (a.apply s).here := by
  cases a with
  | putRf x => simp [Act.apply, h]
  | mapAm f =>
    obtain ⟨ham, -⟩ := State.units_congr h
    cases hm : s.am with
    | none => simpa only [Act.apply, State.mapAm_of_none hm, State.mapAm_of_none (ham.trans hm)]
    | some m => simp only [Act.apply, State.mapAm_of_am hm, State.mapAm_of_am (ham.trans hm), State.setAm_here, h]
  | keep | emit | save => exact h

/-- A command word is the same fault in every state with the same block at its port and the same files, or does the
same act and gives the same reply there. -/
theorem command_acts (agent port : Nat) (w : CmdWord) (s : State) :
    (∃ f, ∀ s', Table.lookup port s'.blocks = Table.lookup port s.blocks → s'.files = s.files →
      command agent port w s' = .fault f) ∨
    ∃ (a : Act) (r : Response), ∀ s', Table.lookup port s'.blocks = Table.lookup port s.blocks → s'.files = s.files →
      command agent port w s' = .next ((a.apply { s' with port := port }).reply r) := by
  cases hb : Table.lookup port s.blocks with
  | none => exact .inl ⟨.noBlock, fun s' hs _ => asOwner_noBlock hs agent _⟩
  | some b =>
    by_cases ho : b.owner = agent
    case neg => exact .inl ⟨.notOwner, fun s' hs _ => asOwner_notOwner hs ho _⟩
    subst ho
    cases hw : decode w with
    | error e => exact .inr ⟨.keep, .error (.illegalCommand w), fun s' hs _ => command_illegal hs hw⟩
    | ok i =>
      have units {s' : State} (hs : Table.lookup port s'.blocks = some b) :
          State.am { s' with port := port } = State.am { s with port := port } ∧
          State.rf { s' with port := port } = State.rf { s with port := port } :=
        State.units_congr (hs.trans hb.symm)
      by_cases hu : State.hasUnit { s with port := port } i
      · obtain ⟨a, r, hk⟩ := exec_acts hu
        refine .inr ⟨a, r, fun s' hs hf => ?_⟩
        obtain ⟨ham, hrf⟩ := units hs
        exact (command_legal hs hw).trans (hk _ ham hrf hf)
      · refine .inl ⟨.noUnit, fun s' hs _ => ?_⟩
        obtain ⟨ham, hrf⟩ := units hs
        exact (command_legal hs hw).trans (exec_noUnit fun h => hu ((State.hasUnit_congr ham hrf i).mp h))

/-- Settles O38: the act and the reply are the same in both states, and what they leave of the block and the files
depends on the block and the files alone. -/
theorem commandSeesOnlyItsOwnBlock : Obligations.CommandSeesOnlyItsOwnBlock := by
  intro agent port w s s' hb hf
  obtain ⟨f, hk⟩ | ⟨a, r, hk⟩ := command_acts agent port w s
  · exact .inl ⟨f, hk s rfl rfl, hk s' hb hf⟩
  · refine .inr ⟨_, _, a.text, hk s rfl rfl, hk s' hb hf, ?_, a.apply_files_congr hf, a.apply_out _, a.apply_out _⟩
    have atPort (u : State) : Table.lookup port ((a.apply { u with port := port }).reply r).blocks =
        ((a.apply { u with port := port }).reply r).here := by
      rw [State.here, State.reply_port, a.apply_port]
    have hhere : State.here { s' with port := port } = State.here { s with port := port } := hb
    rw [atPort s, atPort s', State.reply_here, State.reply_here, a.apply_here_congr hhere]

end Sys2Proof.Machine
end

section
/-! What reads answer after writes: the byte and word views of the RF, the cells of the AM, and a block saved and
loaded. -/

namespace Sys2Proof.Machine

/-- A command answers OK with the number `n` as its result. -/
def AnswersNat (i : Instr) (s : State) (n : Nat) : Prop :=
  ∃ u r, exec i s = .next u ∧ u.response = some (.ok r) ∧ r.toNat = n

/-! ### The bytes of a word, and of the RF after a word write -/

theorem low8_toNat (v : Half) : (low8 v).toNat = v.toNat % 256 := by
  simp [low8, BitVec.extractLsb'_toNat]

theorem high8_toNat (v : Half) : (high8 v).toNat = v.toNat / 256 := by
  have hv : v.toNat < 65536 := v.isLt
  simp only [high8, BitVec.extractLsb'_toNat, Nat.shiftRight_eq_div_pow]
  omega

@[simp] theorem zextWord_toNat (v : Half) : (zextWord v).toNat = v.toNat :=
  BitVec.toNat_setWidth_of_le (by decide)

theorem castSucc_ne_succ (p : Fin 25) : p.castSucc ≠ p.succ :=
  Fin.ne_of_val_ne (Nat.ne_of_lt (Nat.lt_succ_self p.val))

theorem Rf.byte_setWord_low (x : Rf) (p : Fin 25) (v : Half) : (x.setWord p v).byte p.castSucc = low8 v := by
  rw [Rf.byte_setWord, if_neg (castSucc_ne_succ p), if_pos rfl]

theorem Rf.byte_setWord_high (x : Rf) (p : Fin 25) (v : Half) : (x.setWord p v).byte p.succ = high8 v := by
  rw [Rf.byte_setWord, if_pos rfl]

theorem Rf.byte_setWord_other (x : Rf) {p : Fin 25} {q : Fin 26} (hlow : q.val ≠ p.val) (hhigh : q.val ≠ p.val + 1)
    (v : Half) : (x.setWord p v).byte q = x.byte q := by
  rw [Rf.byte_setWord, if_neg (Fin.ne_of_val_ne hhigh), if_neg (Fin.ne_of_val_ne hlow)]

/-! ### The Register File commands, offset in range -/

theorem byteOffset_val {o : Half} {p : Fin 26} (hp : o.toNat = p.val) : byteOffset o = .ok p := by
  rw [byteOffset_ok (hp ▸ p.isLt)]
  exact congrArg _ (Fin.ext hp)

theorem wordOffset_val {o : Half} {p : Fin 25} (hp : o.toNat = p.val) : wordOffset o = .ok p := by
  rw [wordOffset_ok (hp ▸ p.isLt)]
  exact congrArg _ (Fin.ext hp)

section
variable {s : State} {x : Rf} {o : Half} (hx : s.rf = some x)
include hx

/-- RWRB leaves its byte at its offset. -/
theorem rf_after_rwrb {t : State} {p : Fin 26} {v : Byte} (hp : o.toNat = p.val) (h : exec (.rwrb o v) s = .next t) :
    t.rf = some (x.setByte p v) := by
  simp only [exec, execRwrb] at h
  rw [withRf_some hx, byteOffset_val hp, orRaise_ok] at h
  rw [done_next h, State.reply_rf, State.setRf_rf hx]

/-- RWRW leaves its word at its offset. -/
theorem rf_after_rwrw {t : State} {p : Fin 25} {v : Half} (hp : o.toNat = p.val) (h : exec (.rwrw o v) s = .next t) :
    t.rf = some (x.setWord p v) := by
  simp only [exec, execRwrw] at h
  rw [withRf_some hx, wordOffset_val hp, orRaise_ok] at h
  rw [done_next h, State.reply_rf, State.setRf_rf hx]

theorem exec_rrdw {p : Fin 25} (hp : o.toNat = p.val) :
    exec (.rrdw o) s = .next (s.reply (.ok (zextWord (x.word p)))) := by
  simp only [exec, execRrdw]
  rw [withRf_some hx, wordOffset_val hp, orRaise_ok, done]

/-- RRDB answers the byte at its offset. -/
theorem rrdb_answersNat {p : Fin 26} (hp : o.toNat = p.val) : AnswersNat (.rrdb o) s (x.byte p).toNat := by
  obtain ⟨n, hn⟩ := p
  obtain rfl : o.toNat = n := hp
  exact exec_rrdb_answers hx hn

/-- RRDW composes the bytes at its offset and the next. -/
theorem rrdw_answersNat {p q : Fin 26} (hp : o.toNat = p.val) (hq : o.toNat + 1 = q.val) :
    AnswersNat (.rrdw o) s ((x.byte p).toNat + 256 * (x.byte q).toNat) := by
  obtain ⟨k, hk⟩ : ∃ k : Fin 25, o.toNat = k.val := ⟨⟨o.toNat, by omega⟩, rfl⟩
  obtain rfl : p = k.castSucc := Fin.ext (hp.symm.trans hk)
  obtain rfl : q = k.succ := Fin.ext (hq.symm.trans (congrArg (· + 1) hk))
  refine ⟨_, _, exec_rrdw hx hk, State.reply_response (State.here_isSome_of_rf hx) _, ?_⟩
  rw [zextWord_toNat, Rf.word, word_toNat]

end

theorem offset_succ {o : Half} (ho : o.toNat + 1 < 26) : (o + 1).toNat = o.toNat + 1 := by
  bv_omega

theorem offset_pred {o : Half} (ho : 0 < o.toNat) : (o - 1).toNat = o.toNat - 1 := by
  bv_omega

/-- After a word write each read shows the bytes of its own view. -/
theorem reads_after_rwrw {s t : State} {x : Rf} {o v : Half} (hx : s.rf = some x) (ho : o.toNat + 1 < 26)
    (h : exec (.rwrw o v) s = .next t) :
    ∃ y, t.rf = some y ∧ AnswersNat (.rrdw o) t v.toNat ∧ AnswersNat (.rrdb o) t (v.toNat % 256) ∧
      AnswersNat (.rrdb (o + 1)) t (v.toNat / 256) ∧
      (∀ hn : o.toNat + 2 < 26,
        AnswersNat (.rrdw (o + 1)) t (v.toNat / 256 + 256 * (x.byte ⟨o.toNat + 2, hn⟩).toNat)) ∧
      ∀ hn : o.toNat - 1 < 26, 0 < o.toNat →
        AnswersNat (.rrdw (o - 1)) t ((x.byte ⟨o.toNat - 1, hn⟩).toNat + 256 * (v.toNat % 256)) := by
  obtain ⟨p, hp⟩ : ∃ p : Fin 25, o.toNat = p.val := ⟨⟨o.toNat, by omega⟩, rfl⟩
  have hlow : ((x.setWord p v).byte p.castSucc).toNat = v.toNat % 256 := by rw [Rf.byte_setWord_low, low8_toNat]
  have hhigh : ((x.setWord p v).byte p.succ).toNat = v.toNat / 256 := by rw [Rf.byte_setWord_high, high8_toNat]
  have hp_succ : o.toNat + 1 = p.succ.val := congrArg (· + 1) hp
  have ho_succ : (o + 1).toNat = o.toNat + 1 := offset_succ ho
  have hrf : t.rf = some (x.setWord p v) := rf_after_rwrw hx hp h
  refine ⟨_, hrf, ?_, ?_, ?_, fun hn => ?_, fun hn hpos => ?_⟩
  · rw [← Nat.mod_add_div v.toNat 256, ← hlow, ← hhigh]
    exact rrdw_answersNat hrf hp hp_succ
  · rw [← hlow]
    exact rrdb_answersNat hrf hp
  · rw [← hhigh]
    exact rrdb_answersNat hrf (ho_succ.trans hp_succ)
  · have hnext : (x.setWord p v).byte ⟨o.toNat + 2, hn⟩ = x.byte ⟨o.toNat + 2, hn⟩ :=
      x.byte_setWord_other (by simp only; omega) (by simp only; omega) v
    rw [← hhigh, ← hnext]
    exact rrdw_answersNat hrf (ho_succ.trans hp_succ) (congrArg (· + 1) ho_succ)
  · have hprev : (x.setWord p v).byte ⟨o.toNat - 1, hn⟩ = x.byte ⟨o.toNat - 1, hn⟩ :=
      x.byte_setWord_other (by simp only; omega) (by simp only; omega) v
    have ho_pred : (o - 1).toNat + 1 = o.toNat := by rw [offset_pred hpos, Nat.sub_add_cancel hpos]
    rw [← hlow, ← hprev]
    exact rrdw_answersNat hrf (offset_pred hpos) (ho_pred.trans hp)

/-- After writes of two successive bytes the word read composes them. -/
theorem rrdw_after_rwrb_rwrb {s t t' : State} {x : Rf} {o : Half} {v u : Byte} (hx : s.rf = some x)
    (ho : o.toNat + 1 < 26) (h : exec (.rwrb o v) s = .next t) (h' : exec (.rwrb (o + 1) u) t = .next t') :
    AnswersNat (.rrdw o) t' (v.toNat + 256 * u.toNat) := by
  obtain ⟨p, hp⟩ : ∃ p : Fin 25, o.toNat = p.val := ⟨⟨o.toNat, by omega⟩, rfl⟩
  have hp_succ : o.toNat + 1 = p.succ.val := congrArg (· + 1) hp
  have hrf : t.rf = some (x.setByte p.castSucc v) := rf_after_rwrb hx hp h
  have hrf' : t'.rf = some ((x.setByte p.castSucc v).setByte p.succ u) :=
    rf_after_rwrb hrf ((offset_succ ho).trans hp_succ) h'
  have hread := rrdw_answersNat (p := p.castSucc) hrf' hp hp_succ
  rwa [Rf.byte_setByte, if_neg (castSucc_ne_succ p), Rf.byte_setByte_same, Rf.byte_setByte_same] at hread

/-- Settles O43: each read composes the bytes of its view, and a write leaves in each byte what it says. -/
theorem wordAndByteViewsAgree : Obligations.WordAndByteViewsAgree :=
  ⟨fun _ _ _ _ _ hx ho h => reads_after_rwrw hx ho h, fun _ _ _ _ _ _ _ hx ho h h' => rrdw_after_rwrb_rwrb hx ho h h'⟩

/-! ### The Addressed Memory commands, operand in the window -/

/-- MRD answers the cell at its address. -/
theorem mrd_answersNat {s : State} {m : Am} {c : Half} (hm : s.am = some m) (hb : m.base.toNat ≤ c.toNat)
    (he : c.toNat ≤ m.last) : AnswersNat (.mrd c) s (m.read c.toNat).toNat := by
  have hx : exec (.mrd c) s = .next (s.reply (.ok (zextByte (m.read c.toNat)))) := by
    simp only [exec, execMrd]
    rw [withAm_some hm, address_ok hb he, orRaise_ok, done]
  exact ⟨_, _, hx, State.reply_response (State.here_isSome_of_am hm) _, zextByte_toNat _⟩

/-- A span that passes its checks is in order and within the window (40_addressed_memory.md R91). -/
theorem span_eq_ok {m : Am} {sp : Span} {b e : Nat} (h : span m sp = .ok (b, e)) :
    b ≤ e ∧ m.base.toNat ≤ b ∧ e ≤ m.last := by
  obtain ⟨hr, hbe, -, hb, he⟩ := spanCheck_eq_ok h
  cases hr
  exact ⟨hbe, hb, he⟩

theorem Am.Ok.last_eq {m : Am} (h : m.Ok) : m.last + 1 = m.base.toNat + m.cap :=
  Nat.sub_add_cancel (Nat.le_add_left_of_le h.1)

/-- A well-formed AM's default span is its window (R91). -/
theorem span_whole {m : Am} (h : m.Ok) : span m .whole = .ok (m.base.toNat, m.last) := by
  have hcap : 0 < m.cap := h.1
  have hlast := h.last_eq
  exact spanCheck_ok (b := m.base.toNat) (e := m.last) (by omega) (by omega) (Nat.le_refl _) (Nat.le_refl _)

/-- The AM `n` has the window of `m`, and at each address `c` of it the byte `f c`. -/
def Am.Holds (m n : Am) (f : Nat → Byte) : Prop :=
  n.base = m.base ∧ n.last = m.last ∧ ∀ c, m.base.toNat ≤ c → n.read c = f c

/-- MWR leaves its byte at its address. -/
theorem am_after_mwr {s t : State} {m : Am} {a : Half} {v : Byte} (hm : s.am = some m)
    (hb : m.base.toNat ≤ a.toNat) (he : a.toNat ≤ m.last) (h : exec (.mwr a v) s = .next t) :
    ∃ n, t.am = some n ∧ m.Holds n fun c => if c = a.toNat then v else m.read c := by
  simp only [exec, execMwr] at h
  rw [withAm_some hm, address_ok hb he, orRaise_ok] at h
  exact ⟨m.write a.toNat v, by rw [done_next h, State.reply_am, State.setAm_am hm], rfl, rfl,
    fun c hc => Am.read_write hb hc v⟩

/-- MFILL leaves its byte at each address of its span. -/
theorem am_after_mfill {s t : State} {m : Am} {sp : Span} {b e : Nat} {v : Byte} (hm : s.am = some m)
    (hsp : span m sp = .ok (b, e)) (h : exec (.mfill v sp) s = .next t) :
    ∃ n, t.am = some n ∧ m.Holds n fun c => if b ≤ c ∧ c ≤ e then v else m.read c := by
  obtain ⟨hbe, hb, -⟩ := span_eq_ok hsp
  simp only [exec, execMfill] at h
  rw [withAm_some hm, hsp, orRaise_ok] at h
  refine ⟨m.writeBytes b (List.replicate (e + 1 - b) v), by rw [done_next h, State.reply_am, State.setAm_am hm],
    rfl, rfl, fun c hc => ?_⟩
  simp only [Am.read_writeBytes hb hc, List.length_replicate]
  by_cases hin : b ≤ c ∧ c ≤ e
  · rw [if_pos hin, if_pos (by omega), List.getD_eq_getElem?_getD, List.getElem?_replicate, if_pos (by omega),
      Option.getD_some]
  · rw [if_neg hin, if_neg (by omega)]

/-- MRD after a command that leaves `f` in the window answers what `f` says. -/
theorem mrd_after {t : State} {m n : Am} {f : Nat → Byte} {c : Half} (hn : t.am = some n) (h : m.Holds n f)
    (hb : m.base.toNat ≤ c.toNat) (he : c.toNat ≤ m.last) : AnswersNat (.mrd c) t (f c.toNat).toNat := by
  obtain ⟨hbase, hlast, hread⟩ := h
  rw [← hread c.toNat hb]
  exact mrd_answersNat hn (hbase ▸ hb) (hlast ▸ he)

/-- Settles O45: MRD answers the cell, which is the byte written where the write covers it. -/
theorem memoryReadAfterWrite : Obligations.MemoryReadAfterWrite := by
  refine ⟨?_, ?_, ?_⟩
  · intro s t m a c v hm hab hae hcb hce h
    obtain ⟨n, hn, hold⟩ := am_after_mwr hm hab hae h
    obtain ⟨u, r, hu, hr, hval⟩ := mrd_answersNat hm hcb hce
    obtain ⟨u', r', hu', hr', hval'⟩ := mrd_after hn hold hcb hce
    refine ⟨u, u', r, r', hu, hr, hu', hr', ?_⟩
    simp only [hval', hval, apply_ite BitVec.toNat, BitVec.toNat_inj]
  · intro s t m c v sp b e hm hsp hcb hce h
    obtain ⟨n, hn, hold⟩ := am_after_mfill hm hsp h
    obtain ⟨u, r, hu, hr, hval⟩ := mrd_answersNat hm hcb hce
    obtain ⟨u', r', hu', hr', hval'⟩ := mrd_after hn hold hcb hce
    refine ⟨u, u', r, r', hu, hr, hu', hr', ?_⟩
    rw [hval', hval, apply_ite BitVec.toNat]
  · intro s t m c v hm hok hcb hce h
    obtain ⟨n, hn, hold⟩ := am_after_mfill hm (span_whole hok) h
    obtain ⟨u, r, hu, hr, hval⟩ := mrd_after hn hold hcb hce
    exact ⟨u, r, hu, hr, by rw [hval, if_pos ⟨hcb, hce⟩]⟩

/-! ### A block saved whole and loaded -/

/-- The bytes of the whole window of a well-formed AM: cell `i` is byte `i`, and there are CAP of them. -/
theorem Am.Ok.bytes_whole {m : Am} (h : m.Ok) :
    (m.bytes m.base.toNat m.last).length = m.cap ∧
      ∀ i, i < m.cap → (m.bytes m.base.toNat m.last).getD i 0 = m.mem.read i := by
  have hlen : m.last + 1 - m.base.toNat = m.cap := by rw [h.last_eq, Nat.add_sub_cancel_left]
  refine ⟨(m.bytes_length _ _).trans hlen, fun i hi => ?_⟩
  rw [List.getD_eq_getElem?_getD, Am.bytes_getElem? (Nat.le_refl _) (hlen ▸ hi), Option.getD_some, Am.read, Am.index,
    Nat.add_sub_cancel_left]

/-- An MSAVE of the whole window that answers OK has saved the window's bytes. -/
theorem file_after_msave_whole {s t : State} {m : Am} {g : Half} {r : RData} (hm : s.am = some m) (hok : m.Ok)
    (h : exec (.msave g .whole) s = .next t) (hr : t.response = some (.ok r)) :
    t.file g = some (m.bytes m.base.toNat m.last) := by
  simp only [exec, execMsave] at h
  rw [withAm_some hm, span_whole hok, orRaise_ok] at h
  obtain ⟨-, -, hd⟩ | ⟨e, -, rfl⟩ := orRaise_next h
  · rw [done_next hd, State.file_reply, State.file_setFile, if_pos rfl]
  · cases (State.reply_response (State.here_isSome_of_am hm) _).symm.trans hr

theorem imageFile_ok {file : Option (List Byte)} {g : Half} {cap : Nat} {bytes : List Byte} (hf : file = some bytes)
    (hl : bytes.length = cap) : imageFile file g cap = .ok bytes := by
  subst hf
  exact if_pos hl

/-- MLOAD of a file of CAP bytes leaves file byte `i` in cell `i`. -/
theorem am_after_mload {u : State} {n : Am} {g : Half} {bytes : List Byte} (hn : u.am = some n)
    (hf : u.file g = some bytes) (hl : bytes.length = n.cap) :
    ∃ v n', exec (.mload g) u = .next v ∧ v.response = some (.ok 0) ∧ v.am = some n' ∧
      ∀ i, i < n.cap → n'.mem.read i = bytes.getD i 0 := by
  have hx : exec (.mload g) u = .next ((u.setAm (n.writeBytes n.base.toNat bytes)).reply (.ok 0)) := by
    simp only [exec, execMload]
    rw [withAm_some hn, imageFile_ok hf hl, orRaise_ok, done]
  have ham : (u.setAm (n.writeBytes n.base.toNat bytes)).am = some (n.writeBytes n.base.toNat bytes) :=
    State.setAm_am hn _
  refine ⟨_, _, hx, State.reply_response (State.here_isSome_of_am ham) _, (State.reply_am _ _).trans ham,
    fun i hi => ?_⟩
  rw [Am.writeBytes, Am.index, Nat.sub_self, Memory.read_writeBytes, if_pos (by omega), Nat.sub_zero]

/-- Construction from a file of CAP bytes leaves file byte `i` in cell `i`. -/
theorem construct_image {t : State} {g : Half} {bytes : List Byte} {cap : Nat} (hf : t.file g = some bytes)
    (hl : bytes.length = cap) : construct (.image g) cap t = .ok (.image bytes) := by
  simp only [construct, imageFile_ok hf hl]

/-- Settles O46: the file saved is the window's bytes, and both ways of loading it put byte `i` in cell `i`. -/
theorem saveThenLoadRoundTrip : Obligations.SaveThenLoadRoundTrip := by
  intro s t m g hm hok h hr
  have hfile := file_after_msave_whole hm hok h hr
  obtain ⟨hlen, hbytes⟩ := hok.bytes_whole
  refine ⟨fun u n hn hcap hf => ?_, _, construct_image hfile hlen, hbytes⟩
  obtain ⟨v, n', hv, hvr, ham, hread⟩ := am_after_mload hn (hf.trans hfile) (hlen.trans hcap.symm)
  exact ⟨v, n', hv, hvr, ham, fun i hi => (hread i (hcap ▸ hi)).trans (hbytes i hi)⟩

end Sys2Proof.Machine
end

section
/-! When a word decodes to a command, as an equation of words: its used bits are the command's encoding. So decoding
takes back encoding, drops no used bit and reads no other (30_encoding.md R72 to R79). -/

namespace Sys2Proof

/-! ### Words by their fields -/

/-- A word is its fields in order, OP in the most significant place. -/
theorem word_eq_fields (w : CmdWord) :
    w = fieldOp w ++ fieldFsel w ++ fieldRng w ++ fieldRsv w ++ fieldA0 w ++ fieldA1 w ++ fieldD w := by
  simp only [fieldOp, fieldFsel, fieldRng, fieldRsv, fieldA0, fieldA1, fieldD,
    BitVec.extractLsb'_append_extractLsb'_eq_extractLsb']
  exact BitVec.extractLsb'_eq_self.symm

/-- A masked vector by its two parts. -/
theorem and_append_eq_append_iff {m n : Nat} {x u x' : BitVec m} {y v y' : BitVec n} :
    (x ++ y) &&& (u ++ v) = x' ++ y' ↔ x &&& u = x' ∧ y &&& v = y' := by
  rw [BitVec.and_append]
  refine ⟨fun h => ⟨?_, ?_⟩, fun ⟨hx, hy⟩ => hx ▸ hy ▸ rfl⟩
  · simpa only [BitVec.extractLsb'_append_eq_left] using congrArg (BitVec.extractLsb' n m) h
  · simpa only [BitVec.extractLsb'_append_eq_right] using congrArg (BitVec.extractLsb' 0 n) h

/-- The word with all bits of OP and RSV set and the given bits of the other fields. -/
def usedMask (fsel : BitVec 3) (rng : BitVec 1) (a0 a1 d : Half) : CmdWord :=
  BitVec.allOnes 5 ++ fsel ++ rng ++ BitVec.allOnes 7 ++ a0 ++ a1 ++ d

/-- A masked word is an assembled one just when each masked field is the one assembled, RSV being zero. -/
theorem and_usedMask_eq_assembleWord_iff {w : CmdWord} {op : Opcode} {mf fsel : BitVec 3} {mr rng : BitVec 1}
    {m0 m1 md a0 a1 d : Half} :
    w &&& usedMask mf mr m0 m1 md = assembleWord op fsel rng a0 a1 d ↔
      fieldOp w = op.bits ∧ fieldRsv w = 0 ∧ fieldFsel w &&& mf = fsel ∧ fieldRng w &&& mr = rng ∧
        fieldA0 w &&& m0 = a0 ∧ fieldA1 w &&& m1 = a1 ∧ fieldD w &&& md = d := by
  conv => lhs; rw [word_eq_fields w]
  unfold usedMask assembleWord
  iterate 6 rw [and_append_eq_append_iff]
  simp only [BitVec.and_allOnes]
  exact ⟨fun ⟨⟨⟨⟨⟨⟨hop, hfsel⟩, hrng⟩, hrsv⟩, h0⟩, h1⟩, hd⟩ => ⟨hop, hrsv, hfsel, hrng, h0, h1, hd⟩,
    fun ⟨hop, hrsv, hfsel, hrng, h0, h1, hd⟩ => ⟨⟨⟨⟨⟨⟨hop, hfsel⟩, hrng⟩, hrsv⟩, h0⟩, h1⟩, hd⟩⟩

/-! The masks of whole fields, with all ones spelled as the number that simp makes of it. -/

theorem fsel_and_ones (b : BitVec 3) : b &&& 7#3 = b := BitVec.and_allOnes

theorem rng_and_ones (b : BitVec 1) : b &&& 1#1 = b := BitVec.and_allOnes

theorem half_and_ones (v : Half) : v &&& 65535#16 = v := BitVec.and_allOnes

/-- The low byte of D is the byte datum (R76). -/
theorem fieldByte_eq_iff {w : CmdWord} {v : Byte} : fieldByte w = v ↔ fieldD w &&& 0xFF = v.zeroExtend 16 := by
  have hd : w.extractLsb' 8 8 ++ fieldByte w = fieldD w :=
    BitVec.extractLsb'_append_extractLsb'_eq_extractLsb' (start₁ := 0) (len₁ := 8) rfl
  have hm : (0xFF : Half) = 0#8 ++ BitVec.allOnes 8 := rfl
  have hv : v.zeroExtend 16 = 0#8 ++ v := BitVec.setWidth_eq_append (by decide)
  rw [← hd, hm, hv, and_append_eq_append_iff, BitVec.and_allOnes]
  simp

/-! ### Spans -/

/-- The bits of A0, and of A1, that a span uses: RNG = 0 lets both go (R78). -/
def Span.mask : Span → Half
  | .whole => 0
  | .range _ _ => 0xFFFF

theorem spanOf_eq_iff {w : CmdWord} {sp : Span} :
    spanOf w = sp ↔ fieldRng w = sp.rng ∧ fieldA0 w &&& sp.mask = sp.a0 ∧ fieldA1 w &&& sp.mask = sp.a1 := by
  have hr : fieldRng w = 0#1 ∨ fieldRng w = 1#1 := BitVec.eq_zero_or_eq_one _
  rcases hr with hr | hr <;> cases sp <;> simp [spanOf, hr, Span.rng, Span.mask, Span.a0, Span.a1, half_and_ones]

/-! ### Decoding, read backwards -/

theorem flagCommand_eq_ok_iff {w : CmdWord} {mk : Flag → Instr} {i : Instr} :
    flagCommand w mk = .ok i ↔ ∃ f, fieldFsel w = f.fsel ∧ mk f = i := by
  constructor
  · intro h
    unfold flagCommand at h
    split at h <;> cases h
    exact ⟨_, (Flag.fsel_of_ofFsel ‹_›).symm, rfl⟩
  · rintro ⟨f, hf, rfl⟩
    simp [flagCommand, hf]

/-- The command read is one of the opcode asked for. -/
theorem opcode_of_decodeOperands {w : CmdWord} {op : Opcode} {i : Instr} (h : decodeOperands w op = .ok i) :
    i.opcode = op := by
  cases op with
  | rgetf | rsetf | rclrf =>
    obtain ⟨f, -, rfl⟩ := flagCommand_eq_ok_iff.mp h
    rfl
  | _ =>
    cases h
    rfl

/-- A word decodes to a command just when its OP is the command's, its RSV is zero and its fields are the operands. -/
theorem decode_eq_ok_iff {w : CmdWord} {i : Instr} :
    decode w = .ok i ↔ fieldOp w = i.opcode.bits ∧ fieldRsv w = 0 ∧ decodeOperands w i.opcode = .ok i := by
  constructor
  · intro h
    unfold decode at h
    split at h
    · cases h
    · split at h
      · obtain rfl := opcode_of_decodeOperands h
        exact ⟨(Opcode.bits_of_ofBits ‹_›).symm, ‹_›, h⟩
      · cases h
  · rintro ⟨hop, hrsv, hi⟩
    simp [decode, hop, hrsv, hi]

/-- Where a command's operands are what its used fields hold, a word decodes to it just when its used bits are the
command's encoding. -/
theorem decode_iff_of_fields {w : CmdWord} {i : Instr} (mf : BitVec 3) (mr : BitVec 1) (m0 m1 md : Half)
    {fsel : BitVec 3} {rng : BitVec 1} {a0 a1 d : Half} (hm : i.usedBits = usedMask mf mr m0 m1 md)
    (he : encode i = assembleWord i.opcode fsel rng a0 a1 d)
    (hf : decodeOperands w i.opcode = .ok i ↔ fieldFsel w &&& mf = fsel ∧ fieldRng w &&& mr = rng ∧
      fieldA0 w &&& m0 = a0 ∧ fieldA1 w &&& m1 = a1 ∧ fieldD w &&& md = d) :
    decode w = .ok i ↔ w &&& i.usedBits = encode i := by
  rw [hm, he, and_usedMask_eq_assembleWord_iff, decode_eq_ok_iff, hf]

/-- A word decodes to a command just when its used bits are the command's encoding. -/
theorem decode_eq_ok_iff_and_usedBits {w : CmdWord} {i : Instr} :
    decode w = .ok i ↔ w &&& i.usedBits = encode i := by
  cases i with
  | rdumpf | mbegin | mend | msize =>
    exact decode_iff_of_fields 0 0 0 0 0 rfl rfl (by simp [Instr.opcode, decodeOperands])
  | rgetf f | rsetf f | rclrf f =>
    exact decode_iff_of_fields 7 0 0 0 0 rfl rfl
      (by simp [Instr.opcode, decodeOperands, flagCommand_eq_ok_iff, fsel_and_ones])
  | rrdb a | rrdw a | mrd a =>
    exact decode_iff_of_fields 0 0 0xFFFF 0 0 rfl rfl (by simp [Instr.opcode, decodeOperands, half_and_ones])
  | rwrb a v | mwr a v =>
    exact decode_iff_of_fields 0 0 0xFFFF 0 0xFF rfl rfl
      (by simp [Instr.opcode, decodeOperands, half_and_ones, fieldByte_eq_iff])
  | rwrw o v =>
    exact decode_iff_of_fields 0 0 0xFFFF 0 0xFFFF rfl rfl (by simp [Instr.opcode, decodeOperands, half_and_ones])
  | mload h =>
    exact decode_iff_of_fields 0 0 0 0 0xFFFF rfl rfl (by simp [Instr.opcode, decodeOperands, half_and_ones])
  | mfill v sp =>
    exact decode_iff_of_fields 0 1 sp.mask sp.mask 0xFF (by cases sp <;> rw [Span.mask] <;> rfl) rfl
      (by simp [Instr.opcode, decodeOperands, rng_and_ones, spanOf_eq_iff, fieldByte_eq_iff,
        and_comm, and_left_comm, and_assoc])
  | mdump sp =>
    exact decode_iff_of_fields 0 1 sp.mask sp.mask 0 (by cases sp <;> rw [Span.mask] <;> rfl) rfl
      (by simp [Instr.opcode, decodeOperands, rng_and_ones, spanOf_eq_iff])
  | msave h sp =>
    exact decode_iff_of_fields 0 1 sp.mask sp.mask 0xFFFF (by cases sp <;> rw [Span.mask] <;> rfl) rfl
      (by simp [Instr.opcode, decodeOperands, rng_and_ones, half_and_ones, spanOf_eq_iff,
        and_comm, and_left_comm, and_assoc])

/-- An assembled word of an opcode is read as that opcode's command. -/
theorem decode_assembleWord (op : Opcode) (fsel : BitVec 3) (rng : BitVec 1) (a0 a1 d : Half) :
    decode (assembleWord op fsel rng a0 a1 d) = decodeOperands (assembleWord op fsel rng a0 a1 d) op := by
  simp [decode]

/-- Settles O2: the decoder reads each operand back from the field it was assembled into. -/
theorem decodeOfEncode : Obligations.DecodeOfEncode := by
  intro i
  cases i with
  | rgetf f | rsetf f | rclrf f => simp [encode, decode_assembleWord, decodeOperands, flagCommand]
  | _ => simp [encode, decode_assembleWord, decodeOperands]

/-- Settles O3: a word that decodes to a command has the command's encoding for its used bits. -/
theorem decodedWordIsEncodingOnUsedBits : Obligations.DecodedWordIsEncodingOnUsedBits := fun _ _ h =>
  decode_eq_ok_iff_and_usedBits.mp h

end Sys2Proof
end

section
/-! Which words are one command, which are none, and what the port answers them (30_encoding.md R79, R80). -/

namespace Sys2Proof

theorem Opcode.ofBits_eq_none_iff (b : BitVec 5) :
    Opcode.ofBits b = none ↔ (0x08 ≤ b.toNat ∧ b.toNat ≤ 0x0F) ∨ (0x19 ≤ b.toNat ∧ b.toNat ≤ 0x1F) := by
  revert b
  decide

theorem Flag.ofFsel_eq_none_iff (b : BitVec 3) : Flag.ofFsel b = none ↔ b = 3 ∨ b = 5 := by
  revert b
  decide

theorem flagCommand_eq_error_iff (w : CmdWord) (mk : Flag → Instr) :
    (∃ e, flagCommand w mk = .error e) ↔ fieldFsel w = 3 ∨ fieldFsel w = 5 := by
  rw [← Flag.ofFsel_eq_none_iff]
  unfold flagCommand
  split <;> simp [*]

/-- Of the operands only a flag can be illegal (R80 (c)). -/
theorem decodeOperands_eq_error_iff (w : CmdWord) (op : Opcode) :
    (∃ e, decodeOperands w op = .error e) ↔
      (op.bits = 0x04 ∨ op.bits = 0x05 ∨ op.bits = 0x06) ∧ (fieldFsel w = 3 ∨ fieldFsel w = 5) := by
  cases op with
  | rgetf | rsetf | rclrf => simp [decodeOperands, flagCommand_eq_error_iff, Opcode.bits]
  | _ => simp [decodeOperands, Opcode.bits]

theorem decode_eq_error_iff (w : CmdWord) : (∃ e, decode w = .error e) ↔ Opcode.ofBits (fieldOp w) = none ∨
    fieldRsv w ≠ 0 ∨
    ((fieldOp w = 0x04 ∨ fieldOp w = 0x05 ∨ fieldOp w = 0x06) ∧ (fieldFsel w = 3 ∨ fieldFsel w = 5)) := by
  unfold decode
  split
  · simp [*]
  · rename_i op hop
    rw [← Opcode.bits_of_ofBits hop, ← decodeOperands_eq_error_iff]
    split
    · rename_i hrsv
      simp [hrsv]
    · rename_i hrsv
      exact ⟨fun _ => .inr (.inl hrsv), fun _ => ⟨_, rfl⟩⟩

namespace Machine

/-- Of a word that decodes, a port sees only the command. -/
theorem command_congr {w w' : CmdWord} {i : Instr} (h : decode w = .ok i) (h' : decode w' = .ok i)
    (agent port : Nat) (s : State) : command agent port w' s = command agent port w s := by
  rw [command, command, h, h']

/-- Settles O4: that a word decodes to a command is a condition on the command's used bits. -/
theorem unusedFieldsAreIgnored : Obligations.UnusedFieldsAreIgnored := by
  intro w w' i h hu
  have h' : decode w' = .ok i :=
    decode_eq_ok_iff_and_usedBits.mpr (hu.trans (decode_eq_ok_iff_and_usedBits.mp h))
  exact ⟨h', command_congr h h'⟩

/-- Settles O5: the decoder refuses in three places, and the port answers each refusal by raising. -/
theorem illegalWordsAnswerIllegalCommand : Obligations.IllegalWordsAnswerIllegalCommand := by
  refine ⟨fun w => by rw [decode_eq_error_iff, Opcode.ofBits_eq_none_iff], fun w e s port b hw hb => ?_⟩
  have hhere : State.here { s with port := port } = some b := hb
  obtain ⟨t, ht, hr, hout⟩ := raise_spec (s := { s with port := port }) (by simp [hhere]) (.illegalCommand w)
  exact ⟨t, (command_illegal hb hw).trans ht, hr, rfl, rfl, hout⟩

end Machine
end Sys2Proof
end

section
/-! The assembler: which lines assemble and to which fields, and the written words (30_encoding.md R82 to R84). -/

namespace Sys2Proof.Machine

/-- Settles O1: each word is its command's encoding, which decodes back. -/
theorem writtenWordsDecode : Obligations.WrittenWordsDecode := by
  have both {i : Instr} {w : CmdWord} (h : encode i = w) : decode w = .ok i ∧ encode i = w :=
    ⟨h ▸ decodeOfEncode i, h⟩
  exact ⟨both rfl, both rfl, both rfl, both rfl, both rfl, both rfl⟩

@[simp] theorem fits_eq_true_iff (n v : Nat) : fits n v = true ↔ v < 2 ^ n := by
  simp [fits]

/-- Every offset of the RF fits the field A0. -/
theorem fits_offset {k : Nat} (hk : k ≤ 26) (o : Fin k) : fits 16 o = true := by
  rw [fits_eq_true_iff]
  omega

/-- Settles O54: the line and its expansion give the same command, and the register's offset always fits. -/
theorem pseudoCommandsExpand : Obligations.PseudoCommandsExpand := by
  have hb (reg : ByteReg) := fits_offset (by decide) reg.offset
  have hw (reg : WordReg) := fits_offset (by decide) reg.offset
  refine ⟨fun reg => ?_, fun reg v => ?_, fun reg => ?_, fun reg v => ?_⟩ <;>
    simp [assemble, asmInstr, AsmLine.wellFormed, hb, hw]

/-- A line that assembles gives a word that decodes to its command. -/
theorem decode_of_assemble {l : AsmLine} {w : CmdWord} (h : assemble l = some w) : decode w = .ok (asmInstr l) := by
  unfold assemble at h
  split at h <;> cases h
  exact decodeOfEncode _

/-- A line whose numbers fit assembles to the word with those numbers in its fields. -/
theorem assemblesTo_of_fits {l : AsmLine} {fit : Prop} (op : Opcode) (fsel : BitVec 3) (rng : BitVec 1) (a0 a1 d : Nat)
    {z : Half} (hw : l.wellFormed = true ↔ fit)
    (he : encode (asmInstr l) = assembleWord op fsel rng (BitVec.ofNat 16 a0) (BitVec.ofNat 16 a1) z)
    (hz : fit → z = BitVec.ofNat 16 d := by exact fun _ => rfl)
    (hf : fit → a0 < 0x10000 ∧ a1 < 0x10000 ∧ d < 0x10000 := by omega) :
    AssemblesTo l fit op.bits.toNat fsel.toNat rng.toNat a0 a1 d := by
  refine assemblesTo_of_encode op fsel rng _ _ z hw he fun h => ?_
  obtain ⟨h0, h1, hd⟩ := hf (hw.mp h)
  simp [hz (hw.mp h), Nat.mod_eq_of_lt h0, Nat.mod_eq_of_lt h1, Nat.mod_eq_of_lt hd]

theorem zeroExtend_ofNat {v : Nat} (h : v < 0x100) : (BitVec.ofNat 8 v).zeroExtend 16 = BitVec.ofNat 16 v :=
  BitVec.setWidth_ofNat_of_le_of_lt (by decide) h

/-- A line that assembles as another does has its fields. -/
theorem AssemblesTo.of_assemble_eq {l l' : AsmLine} {fit fit' : Prop} {op fsel rng a0 a1 d : Nat}
    (h : AssemblesTo l' fit' op fsel rng a0 a1 d) (hl : assemble l = assemble l') (hf : fit' ↔ fit) :
    AssemblesTo l fit op fsel rng a0 a1 d := by
  rw [AssemblesTo, hl, ← hf]
  exact h

theorem assemblesTo_rrdb (o : Nat) : AssemblesTo (.rrdb o) (o < 0x10000) 0x00 0 0 o 0 0 :=
  assemblesTo_of_fits .rrdb 0 0 o 0 0 (fits_eq_true_iff 16 o) rfl

theorem assemblesTo_rwrb (o v : Nat) : AssemblesTo (.rwrb o v) (o < 0x10000 ∧ v < 0x100) 0x01 0 0 o 0 v :=
  assemblesTo_of_fits .rwrb 0 0 o 0 v (by simp [AsmLine.wellFormed]) rfl fun h => zeroExtend_ofNat h.2

theorem assemblesTo_rrdw (o : Nat) : AssemblesTo (.rrdw o) (o < 0x10000) 0x02 0 0 o 0 0 :=
  assemblesTo_of_fits .rrdw 0 0 o 0 0 (fits_eq_true_iff 16 o) rfl

theorem assemblesTo_rwrw (o v : Nat) : AssemblesTo (.rwrw o v) (o < 0x10000 ∧ v < 0x10000) 0x03 0 0 o 0 v :=
  assemblesTo_of_fits .rwrw 0 0 o 0 v (by simp [AsmLine.wellFormed]) rfl

/-- Settles O55: each form's check and encoding give its fields; GET and PUT have those of their expansions. -/
theorem assemblerRefusesWhatDoesNotFit : Obligations.AssemblerRefusesWhatDoesNotFit := by
  obtain ⟨hGetByte, hPutByte, hGetWord, hPutWord⟩ := pseudoCommandsExpand
  have hreg (reg : ByteReg) : reg.offset.val < 0x10000 := by omega
  have hwreg (reg : WordReg) : reg.offset.val < 0x10000 := by omega
  exact ⟨assemblesTo_rrdb, assemblesTo_rwrb, assemblesTo_rrdw, assemblesTo_rwrw, rfl,
    fun f => assemblesTo_of_fits .rgetf f.fsel 0 0 0 0 (by simp [AsmLine.wellFormed]) rfl,
    fun f => assemblesTo_of_fits .rsetf f.fsel 0 0 0 0 (by simp [AsmLine.wellFormed]) rfl,
    fun f => assemblesTo_of_fits .rclrf f.fsel 0 0 0 0 (by simp [AsmLine.wellFormed]) rfl,
    assemblesTo_of_fits .rdumpf 0 0 0 0 0 (by simp [AsmLine.wellFormed]) rfl,
    fun a => assemblesTo_of_fits .mrd 0 0 a 0 0 (fits_eq_true_iff 16 a) rfl,
    fun a v => assemblesTo_of_fits .mwr 0 0 a 0 v (by simp [AsmLine.wellFormed]) rfl fun h => zeroExtend_ofNat h.2,
    fun v => assemblesTo_of_fits .mfill 0 0 0 0 v (by simp [AsmLine.wellFormed, spanFits]) rfl zeroExtend_ofNat,
    fun v b e => assemblesTo_of_fits .mfill 0 1 b e v (by simp [AsmLine.wellFormed, spanFits]) rfl
      fun h => zeroExtend_ofNat h.1,
    assemblesTo_of_fits .mdump 0 0 0 0 0 (by simp [AsmLine.wellFormed, spanFits]) rfl,
    fun b e => assemblesTo_of_fits .mdump 0 1 b e 0 (by simp [AsmLine.wellFormed, spanFits]) rfl,
    fun h => assemblesTo_of_fits .msave 0 0 0 0 h (by simp [AsmLine.wellFormed, spanFits]) rfl,
    fun h b e => assemblesTo_of_fits .msave 0 1 b e h (by simp [AsmLine.wellFormed, spanFits]) rfl,
    fun h => assemblesTo_of_fits .mload 0 0 0 0 h (fits_eq_true_iff 16 h) rfl,
    assemblesTo_of_fits .mbegin 0 0 0 0 0 (by simp [AsmLine.wellFormed]) rfl,
    assemblesTo_of_fits .mend 0 0 0 0 0 (by simp [AsmLine.wellFormed]) rfl,
    assemblesTo_of_fits .msize 0 0 0 0 0 (by simp [AsmLine.wellFormed]) rfl,
    fun reg => (assemblesTo_rrdb _).of_assemble_eq (hGetByte reg) (by simp [hreg]),
    fun reg v => (assemblesTo_rwrb _ v).of_assemble_eq (hPutByte reg v) (by simp [hreg]),
    fun reg => (assemblesTo_rrdw _).of_assemble_eq (hGetWord reg) (by simp [hwreg]),
    fun reg v => (assemblesTo_rwrw _ v).of_assemble_eq (hPutWord reg v) (by simp [hwreg]),
    fun _ _ => decode_of_assemble⟩

end Sys2Proof.Machine
end

section
/-! The command word that stands at the front of the inbox: to which port it is presented, and that the next step runs
it (30_encoding.md R72; log 12). -/

namespace Sys2Proof.Machine

/-- A block takes a command's word when it is of the command's unit. -/
theorem Block.takes_eq {w : CmdWord} {i : Instr} (hw : decode w = .ok i) (b : Block) :
    b.takes w = if usesAm i then b.am.isSome else b.rf.isSome := by
  obtain ⟨hop, -, -⟩ := decode_eq_ok_iff.mp hw
  have hu : (fieldOp w).getLsbD 4 = usesAm i := by rw [hop, usesAm]
  obtain ⟨owner, m | x, response⟩ := b
  · simp only [Block.takes, hu]
    cases usesAm i <;> rfl
  · simp only [Block.takes, hu]
    cases usesAm i <;> rfl

/-- A command has its unit at a port where a block stands that takes its word. -/
theorem State.hasUnit_iff_takes {w : CmdWord} {i : Instr} (hw : decode w = .ok i) (s : State) :
    s.hasUnit i ↔ ∃ b, s.here = some b ∧ b.takes w = true := by
  unfold State.hasUnit State.am State.rf
  cases hs : s.here with
  | none => simp
  | some b => simp [Block.takes_eq hw]

/-- Where some block takes the word, the word is presented by the owner of such a block: of the one at the current
port, if that one does. -/
theorem presentWord_eq {s : State} {w : CmdWord} {n : Nat} {c : Block} (hs : s.Inv)
    (hc : Table.lookup n s.blocks = some c) (ht : c.takes w = true) :
    ∃ p b, presentWord s w = .command b.owner p w ∧ Table.lookup p s.blocks = some b ∧ b.takes w = true ∧
      ((∃ d, s.here = some d ∧ d.takes w = true) → p = s.port) := by
  unfold presentWord
  split
  · rename_i b hb
    obtain ⟨hb, htb⟩ := Option.filter_eq_some_iff.mp hb
    exact ⟨s.port, b, rfl, hb, htb, fun _ => rfl⟩
  · rename_i hnone
    have hcur : ¬∃ d, s.here = some d ∧ d.takes w = true := fun ⟨d, hd, htd⟩ => by simp [hd, htd] at hnone
    split
    · rename_i q hq
      exact ⟨q.1, q.2, rfl, Table.lookup_of_mem hs.1 (List.mem_of_find?_eq_some hq),
        by simpa using List.find?_some hq, fun h => (hcur h).elim⟩
    · rename_i hq
      exact (List.find?_eq_none.mp hq _ (Table.mem_of_lookup hc) ht).elim

/-- A table word is the command word of its low bits. -/
theorem decodeTableWord_eq_some_iff {nbits w : Nat} {i : Instr} :
    decodeTableWord nbits w = some i ↔ decode (BitVec.ofNat 64 (w % 2 ^ nbits)) = .ok i := by
  unfold decodeTableWord
  split <;> simp [*]

/-- Settles O7: the request placed is the oldest, and it is presented where it has a step. -/
theorem fetchWordRunsNext : Obligations.FetchWordRunsNext := by
  intro s nbits w n i hs hn hw
  rw [decodeTableWord_eq_some_iff] at hw
  obtain ⟨c, hc, htc⟩ := (State.hasUnit_iff_takes hw _).mp hn
  obtain ⟨p, b, hreq, hb, htb, hcur⟩ := presentWord_eq hs hc htc
  have hu (t : State) (ht : t.here = some b) : t.hasUnit i := (State.hasUnit_iff_takes hw t).mpr ⟨b, ht, htb⟩
  refine ⟨p, hu _ hb, fun h => hcur ((State.hasUnit_iff_takes hw s).mp h), ?_⟩
  exact stepRunsDecodedCommand (s.withFetchWord nbits w) b.owner p _ s.inbox b i
    (congrArg (· :: s.inbox) hreq) hb rfl hw (hu _ hb)

end Sys2Proof.Machine
end

section
/-! The Addressed Memory commands one by one: how their words decode, what their operand checks decide, and what each
answers and leaves unchanged (40_addressed_memory.md R90 to R103). -/

namespace Sys2Proof.Machine

/-! ### Span operands (30_encoding.md R78) -/

/-- A word that decodes to a command of its span operand takes both ends from A0 and A1, or none, as RNG says. -/
theorem decode_span_by_rng {w : CmdWord} {mk : Span → Instr} (h : decode w = .ok (mk (spanOf w))) :
    (fieldRng w = 1 → decode w = .ok (mk (.range (fieldA0 w) (fieldA1 w)))) ∧
    (fieldRng w = 0 → decode w = .ok (mk .whole)) := by
  refine ⟨fun hr => ?_, fun hr => ?_⟩
  · rw [h, spanOf, if_pos hr]
  · rw [h, spanOf, if_neg (by simp [hr])]

theorem span_eq_spanCheck {m : Am} {sp : Span} {b e : Nat} (h : resolveSpan m sp = (b, e)) :
    span m sp = spanCheck m b e := by
  rw [span, h]

theorem span_ok {m : Am} {sp : Span} {b e : Nat} (hsp : resolveSpan m sp = (b, e)) (hbe : b ≤ e)
    (hc : e - b + 1 ≤ m.cap) (hb : m.base.toNat ≤ b) (he : e ≤ m.last) : span m sp = .ok (b, e) := by
  rw [span_eq_spanCheck hsp, spanCheck_ok hbe hc hb he]

/-! ### The three span checks, in the order of R91 -/

theorem spanCheck_reversed {m : Am} {b e : Nat} (h : e < b) : spanCheck m b e = .error (.overflowError b e) :=
  if_pos h

theorem spanCheck_tooLong {m : Am} {b e : Nat} (hbe : b ≤ e) (h : m.cap < e - b + 1) :
    spanCheck m b e = .error (.overflowError b e) := by
  rw [spanCheck, if_neg (Nat.not_lt.mpr hbe), if_pos h]

theorem spanCheck_outside {m : Am} {b e : Nat} (hbe : b ≤ e) (hc : e - b + 1 ≤ m.cap)
    (h : b < m.base.toNat ∨ m.last < e) : spanCheck m b e = .error (.spanOutOfRange b e) := by
  rw [spanCheck, if_neg (Nat.not_lt.mpr hbe), if_neg (Nat.not_lt.mpr hc), if_pos h]

/-! ### What a command answers with an AM behind the port -/

section
variable {s : State} {m : Am} (hm : s.am = some m)
include hm

/-- Ending a command that has replaced the AM: nothing else is changed. -/
theorem done_setAm_spec (m' : Am) (r : RData) :
    ∃ t, done r (s.setAm m') = .next t ∧ t.response = some (.ok r) ∧ t.am = some m' ∧
      t.rf = s.rf ∧ s.SameHost t ∧ s.SameOutside t := by
  have ham : (s.setAm m').am = some m' := State.setAm_am hm m'
  exact ⟨_, rfl, State.reply_response (State.here_isSome_of_am ham) _, by rw [State.reply_am, ham], by simp,
    ⟨rfl, rfl⟩, (s.sameOutside_setAm m').trans (State.sameOutside_reply _ _)⟩

theorem exec_mrd_eq (a : Half) :
    exec (.mrd a) s = orRaise (address m a) s fun n => done (zextByte (m.read n)) s :=
  withAm_some hm _

theorem exec_mwr_eq (a : Half) (v : Byte) :
    exec (.mwr a v) s = orRaise (address m a) s fun n => done 0 (s.setAm (m.write n v)) :=
  withAm_some hm _

theorem exec_mfill_eq (v : Byte) (sp : Span) :
    exec (.mfill v sp) s = orRaise (span m sp) s fun r =>
      done 0 (s.setAm (m.writeBytes r.1 (List.replicate (r.2 + 1 - r.1) v))) :=
  withAm_some hm _

theorem exec_mdump_eq (sp : Span) :
    exec (.mdump sp) s = orRaise (span m sp) s fun r => done 0 (s.emit (dumpText m r.1 r.2)) :=
  withAm_some hm _

theorem exec_msave_eq (h : Half) (sp : Span) :
    exec (.msave h sp) s = orRaise (span m sp) s fun r => orRaise (freshFile s h) s fun _ =>
      done 0 (s.setFile h (m.bytes r.1 r.2)) :=
  withAm_some hm _

theorem exec_mload_eq (h : Half) :
    exec (.mload h) s = orRaise (imageFile (s.file h) h m.cap) s fun bytes =>
      done 0 (s.setAm (m.writeBytes m.base.toNat bytes)) :=
  withAm_some hm _

/-- A command that does nothing but raise answers its error and leaves the rest. -/
theorem answers_error {i : Instr} {er : Error} (h : exec i s = raise er s) :
    ∃ t, exec i s = .next t ∧ t.response = some (.error er) ∧ s.OnlyResponse t := by
  rw [h]
  exact raise_spec (State.here_isSome_of_am hm) er

/-- A command that does nothing but answer a result leaves the rest. -/
theorem answers_ok {i : Instr} {r : RData} (h : exec i s = done r s) :
    ∃ t, exec i s = .next t ∧ t.response = some (.ok r) ∧ s.OnlyResponse t := by
  rw [h]
  exact done_spec (State.here_isSome_of_am hm) r

/-- A span that fails its check is the answer of each of the three commands that take one, before anything else. -/
theorem answers_spanError {i : Instr} {v : Byte} {h : Half} {sp : Span} {er : Error}
    (hi : i = .mfill v sp ∨ i = .mdump sp ∨ i = .msave h sp) (her : span m sp = .error er) :
    ∃ t, exec i s = .next t ∧ t.response = some (.error er) ∧ s.OnlyResponse t := by
  apply answers_error hm
  obtain rfl | rfl | rfl := hi
  · rw [exec_mfill_eq hm, her, orRaise_error]
  · rw [exec_mdump_eq hm, her, orRaise_error]
  · rw [exec_msave_eq hm, her, orRaise_error]

end

/-! ### One cell -/

/-- Settles O17: the address check passes just in the window, and the cell is then the reply. -/
theorem mrdReadsCell : Obligations.MrdReadsCell := by
  refine ⟨fun w hop hrsv => decode_eq_ok_iff.mpr ⟨hop, hrsv, rfl⟩, fun s m a hm hb he => ?_, fun s m a hm ha => ?_,
    fun _ => rfl⟩
  · obtain ⟨t, ht, hr, hout⟩ := answers_ok hm (i := .mrd a) (by rw [exec_mrd_eq hm, address_ok hb he, orRaise_ok])
    exact ⟨t, _, ht, hr, zextByte_toNat _, hout⟩
  · exact answers_error hm (by rw [exec_mrd_eq hm, address_error ha, orRaise_error])

/-- Settles O18: the address check passes just in the window, and the AM is then replaced by the one written. -/
theorem mwrWritesOneCell : Obligations.MwrWritesOneCell := by
  refine ⟨fun w hop hrsv => decode_eq_ok_iff.mpr ⟨hop, hrsv, rfl⟩, fun s m a v hm hb he => ?_,
    fun s m a v hm ha => ?_⟩
  · obtain ⟨t, ht, hr, ham, hframe⟩ := done_setAm_spec hm (m.write a.toNat v) 0
    refine ⟨t, _, ?_, hr, ham, fun c hc => Am.read_write hb hc v, ⟨rfl, rfl, rfl⟩, hframe⟩
    rw [exec_mwr_eq hm, address_ok hb he, orRaise_ok, ht]
  · exact answers_error hm (by rw [exec_mwr_eq hm, address_error ha, orRaise_error])

/-! ### Spans -/

/-- Settles O23: each check is a lemma of the span check, and an error is the answer of all three commands alike. -/
theorem spanChecksInOrder : Obligations.SpanChecksInOrder := by
  refine ⟨fun m b e => rfl, fun m => rfl, fun m hok => span_whole hok, fun s m sp b e v h i hm hsp hi => ?_⟩
  have failed {er : Error} (hc : spanCheck m b e = .error er) :
      ∃ t, exec i s = .next t ∧ t.response = some (.error er) ∧ s.OnlyResponse t :=
    answers_spanError hm hi ((span_eq_spanCheck hsp).trans hc)
  exact ⟨fun hlt => failed (spanCheck_reversed hlt), fun hbe hlong => failed (spanCheck_tooLong hbe hlong),
    fun hbe hc hout => failed (spanCheck_outside hbe hc hout)⟩

/-- Settles O19: the run written is as long as the span, which reads back as the fill byte. -/
theorem mfillFillsExactlyTheSpan : Obligations.MfillFillsExactlyTheSpan := by
  refine ⟨fun w hop hrsv => decode_span_by_rng (decode_eq_ok_iff.mpr ⟨hop, hrsv, rfl⟩),
    fun s m v sp b e hm hsp hbe hc hb he => ?_,
    fun s m v sp er hm her => answers_spanError (h := 0) hm (.inl rfl) her⟩
  have hok : span m sp = .ok (b, e) := span_ok hsp hbe hc hb he
  obtain ⟨t, ht, hr, ham, hframe⟩ := done_setAm_spec hm (m.writeBytes b (List.replicate (e + 1 - b) v)) 0
  have hx : exec (.mfill v sp) s = .next t := by rw [exec_mfill_eq hm, hok, orRaise_ok, ht]
  obtain ⟨n, hn, -, -, hread⟩ := am_after_mfill hm hok hx
  obtain rfl := Option.some.inj (ham.symm.trans hn)
  exact ⟨t, _, hx, hr, ham, hread, m.sameConfig_writeBytes _ _, hframe⟩

/-! ### Files -/

theorem freshFile_absent {s : State} {h : Half} (hf : s.file h = none) : freshFile s h = .ok () := by
  simp [freshFile, hf]

theorem freshFile_exists {s : State} {h : Half} {old : List Byte} (hf : s.file h = some old) :
    freshFile s h = .error (.fileAlreadyExists h) := by
  simp [freshFile, hf]

theorem imageFile_otherLength {file : Option (List Byte)} {h : Half} {cap : Nat} {bytes : List Byte}
    (hf : file = some bytes) (hl : bytes.length ≠ cap) :
    imageFile file h cap = .error (.sizeMismatch bytes.length) := by
  subst hf
  exact if_neg hl

/-- Settles O20: the span check comes first, then the existence check; the file saved is the bytes of the span. -/
theorem msaveWritesNewFile : Obligations.MsaveWritesNewFile := by
  refine ⟨fun w hop hrsv => decode_span_by_rng (decode_eq_ok_iff.mpr ⟨hop, hrsv, rfl⟩),
    fun s m h sp b e hm hsp hbe hc hb he hf => ?_, fun s m h sp b e old hm hsp hbe hc hb he hf => ?_,
    fun s m h sp er hm her => answers_spanError (v := 0) hm (.inr (.inr rfl)) her⟩
  · have hx : exec (.msave h sp) s = .next ((s.setFile h (m.bytes b e)).reply (.ok 0)) := by
      rw [exec_msave_eq hm, span_ok hsp hbe hc hb he, orRaise_ok, freshFile_absent hf, orRaise_ok, done]
    have hlen : e + 1 - b = e - b + 1 := by omega
    refine ⟨_, m.bytes b e, hx, ?_, ?_, ?_, fun k hk => Am.bytes_getElem? hb (hlen ▸ hk), fun g hg => ?_, by simp,
      by simp, rfl, (s.sameOutside_setFile h _).trans (State.sameOutside_reply _ _)⟩
    · exact State.reply_response (s := s.setFile h _) (State.here_isSome_of_am hm) _
    · rw [State.file_reply, State.file_setFile, if_pos rfl]
    · rw [Am.bytes_length, hlen]
    · rw [State.file_reply, State.file_setFile, if_neg hg]
  · refine answers_error hm ?_
    rw [exec_msave_eq hm, span_ok hsp hbe hc hb he, orRaise_ok, freshFile_exists hf, orRaise_error]

/-- Settles O21: the image check passes just for a file of CAP bytes, and the run written from BASE on is then the
whole block. -/
theorem mloadLoadsWholeBlock : Obligations.MloadLoadsWholeBlock := by
  refine ⟨fun w hop hrsv => decode_eq_ok_iff.mpr ⟨hop, hrsv, rfl⟩, fun s m h bytes hm hf hl => ?_,
    fun s m h hm hf => ?_, fun s m h bytes hm hf hl => ?_⟩
  · obtain ⟨t, ht, hr, ham, hframe⟩ := done_setAm_spec hm (m.writeBytes m.base.toNat bytes) 0
    have hx : exec (.mload h) s = .next t := by rw [exec_mload_eq hm, imageFile_ok hf hl, orRaise_ok, ht]
    obtain ⟨v, n, hv, -, hn, hread⟩ := am_after_mload hm hf hl
    obtain rfl := Host.Outcome.next.inj (hx.symm.trans hv)
    obtain rfl := Option.some.inj (ham.symm.trans hn)
    refine ⟨t, _, hx, hr, ham, fun i hi => ?_, m.sameConfig_writeBytes _ _, hframe⟩
    rw [hread i hi, List.getD_eq_getElem?_getD, List.getElem?_eq_getElem (hl ▸ hi), Option.getD_some]
  · refine answers_error hm ?_
    rw [exec_mload_eq hm, hf, imageFile, orRaise_error]
  · exact answers_error hm (by rw [exec_mload_eq hm, imageFile_otherLength hf hl, orRaise_error])

/-! ### The configuration -/

/-- A number of 16 bits, or 0x10000, is shown whole in RDATA. -/
theorem toNat_rdata_ofNat {n : Nat} (h : n ≤ 0x10000) : (BitVec.ofNat 32 n).toNat = n :=
  Nat.mod_eq_of_lt (by omega)

/-- Settles O22: each accessor only replies, and its number fits RDATA. -/
theorem accessorsAnswerConfiguration : Obligations.AccessorsAnswerConfiguration := by
  refine ⟨fun w hop hrsv => decode_eq_ok_iff.mpr ⟨hop, hrsv, rfl⟩,
    fun w hop hrsv => decode_eq_ok_iff.mpr ⟨hop, hrsv, rfl⟩,
    fun w hop hrsv => decode_eq_ok_iff.mpr ⟨hop, hrsv, rfl⟩, fun s m hm hcap hwin => ⟨?_, ?_, ?_⟩⟩
  · obtain ⟨t, ht, hr, hout⟩ := answers_ok hm (i := .mbegin) (withAm_some hm _)
    exact ⟨t, _, ht, hr, zextWord_toNat _, hout⟩
  · obtain ⟨t, ht, hr, hout⟩ := answers_ok hm (i := .mend) (withAm_some hm _)
    exact ⟨t, _, ht, hr, toNat_rdata_ofNat (n := m.last) (Nat.le_succ_of_le hwin), hout⟩
  · obtain ⟨t, ht, hr, hout⟩ := answers_ok hm (i := .msize) (withAm_some hm _)
    exact ⟨t, _, ht, hr, toNat_rdata_ofNat (by omega), hout⟩

end Sys2Proof.Machine
end

section
/-! The text of MDUMP: the characters of a line, and the lines of a span (40_addressed_memory.md R95 to R98). -/

namespace Sys2Proof.Machine

/-! ### Characters -/

/-- Settles O26: the signed value of a byte is its unsigned one below 0x80, and negative from there on. -/
theorem asciiRendering : Obligations.AsciiRendering := by
  refine fun c => ⟨fun h => if_pos h, fun h => if_neg h, ?_⟩
  have hc : c.toNat < 256 := c.isLt
  rw [BitVec.toInt_eq_toNat_cond]
  split <;> omega

/-- A digit is the one at its value in the text of the sixteen digits (R98). -/
theorem digits_getElem? : ∀ n < 16, "0123456789ABCDEF".toList[n]? = some (hexDigit n) := by
  decide

/-! ### A line -/

theorem Am.bytes_eq_map {m : Am} {b : Nat} (hb : m.base.toNat ≤ b) (e : Nat) :
    m.bytes b e = (List.range (e + 1 - b)).map fun k => m.read (b + k) := by
  refine List.ext_getElem? fun k => ?_
  by_cases hk : k < e + 1 - b
  · rw [Am.bytes_getElem? hb hk, List.getElem?_map, List.getElem?_range hk, Option.map_some]
  · rw [List.getElem?_eq_none (by simpa using hk), List.getElem?_eq_none (by simpa using hk)]

/-- Settles O25: the bytes of the line are the cells from its start on, and each digit is below 16. -/
theorem dumpLineFormat : Obligations.DumpLineFormat := by
  refine ⟨fun m s t hs _ => ?_, fun c => ?_, fun n hn => ?_⟩
  · rw [dumpLine, Am.bytes_eq_map hs, List.flatMap_map, List.map_map]
    rfl
  · have hc : c.toNat < 256 := c.isLt
    rw [digits_getElem? _ (by omega), digits_getElem? _ (by omega)]
    rfl
  · have htop : n / 4096 % 16 = n / 4096 := Nat.mod_eq_of_lt (by omega)
    rw [digits_getElem? _ (by omega), digits_getElem? _ (by omega), digits_getElem? _ (by omega),
      digits_getElem? _ (by omega), hex4, htop]
    rfl

/-! ### The lines of a span -/

theorem dumpLines_past {m : Am} {s e : Nat} (h : e < s) (fuel : Nat) : dumpLines m e fuel s = [] := by
  cases fuel with
  | zero => rfl
  | succ fuel => exact if_neg (Nat.not_le.mpr h)

theorem dumpLines_succ {m : Am} {s e : Nat} (h : s ≤ e) (fuel : Nat) :
    dumpLines m e (fuel + 1) s = dumpLine m s (min (s + m.width - 1) e) ++ dumpLines m e fuel (s + m.width) :=
  if_pos h

theorem Am.width_pos {m : Am} (hcap : 0 < m.cap) : 0 < m.width :=
  Nat.lt_min.mpr ⟨hcap, by decide⟩

/-- Fuel for each byte that is left is fuel for each line: more of it adds nothing. -/
theorem dumpLines_fuel {m : Am} (hcap : 0 < m.cap) {e fuel fuel' s : Nat} (h : e + 1 - s ≤ fuel)
    (h' : e + 1 - s ≤ fuel') : dumpLines m e fuel s = dumpLines m e fuel' s := by
  have hw : 0 < m.width := Am.width_pos hcap
  induction fuel generalizing fuel' s with
  | zero => rw [dumpLines_past (by omega), dumpLines_past (by omega)]
  | succ fuel ih =>
    by_cases hs : s ≤ e
    · obtain ⟨n, rfl⟩ : ∃ n, fuel' = n + 1 := Nat.exists_eq_add_one.mpr (by omega)
      rw [dumpLines_succ hs, dumpLines_succ hs, ih (fuel' := n) (by omega) (by omega)]
    · rw [dumpLines_past (by omega), dumpLines_past (by omega)]

theorem dumpText_past {m : Am} {b e : Nat} (h : e < b) : dumpText m b e = [] :=
  dumpLines_past h _

/-- The dump text is its first line and then the dump text of what is left. -/
theorem dumpText_eq_line_append {m : Am} (hcap : 0 < m.cap) {b e : Nat} (hbe : b ≤ e) :
    dumpText m b e = dumpLine m b (min (b + m.width - 1) e) ++ dumpText m (b + m.width) e := by
  have hw : 0 < m.width := Am.width_pos hcap
  have hfuel : e + 1 - b = e - b + 1 := by omega
  rw [dumpText, dumpText, hfuel, dumpLines_succ hbe, dumpLines_fuel hcap (by omega) (Nat.le_refl _)]

/-- Settles O24: the command appends the dump text, whose first line ends at the span's end or W bytes on. -/
theorem mdumpEmitsLines : Obligations.MdumpEmitsLines := by
  refine ⟨fun w hop hrsv => decode_span_by_rng (decode_eq_ok_iff.mpr ⟨hop, hrsv, rfl⟩),
    fun s m sp b e hm hsp hbe hc hb he => ?_,
    fun s m sp er hm her => answers_spanError (v := 0) (h := 0) hm (.inr (.inl rfl)) her,
    fun m b e hcap hbe => ?_⟩
  · have hx : exec (.mdump sp) s = .next ((s.emit (dumpText m b e)).reply (.ok 0)) := by
      rw [exec_mdump_eq hm, span_ok hsp hbe hc hb he, orRaise_ok, done]
    exact ⟨_, hx, State.reply_response (s := s.emit _) (State.here_isSome_of_am hm) _, rfl, by simp, by simp, rfl,
      (s.sameOutside_emit _).trans (State.sameOutside_reply _ _)⟩
  · rw [dumpText_eq_line_append hcap hbe, Am.width]
    split
    · rw [Nat.min_eq_right (by omega), dumpText_past (by omega), List.append_nil]
    · rw [Nat.min_eq_left (by omega)]

end Sys2Proof.Machine
end

section
/-! The Register File commands one by one: how their words decode, what each answers and what it leaves unchanged
(41_register_file.md R130 to R140). -/

namespace Sys2Proof.Machine

/-! ### Flags as bits of F (10_state.md R30) -/

theorem Flag.fsel_toNat_ne {f g : Flag} (h : g ≠ f) : g.fsel.toNat ≠ f.fsel.toNat := fun heq =>
  h (Option.some.inj (by rw [← Flag.ofFsel_fsel g, ← Flag.ofFsel_fsel f, BitVec.eq_of_toNat_eq heq]))

/-- A flag's value is the bit of its number. -/
theorem getFlag_eq_getLsbD (f : Flag) (b : Byte) : getFlag f b = b.getLsbD f.fsel.toNat := by
  have hmask : f.mask = BitVec.twoPow 8 f.fsel.toNat := rfl
  have hne : f.mask ≠ 0 := by cases f <;> decide
  rw [getFlag, hmask, BitVec.and_twoPow, ← hmask]
  cases b.getLsbD f.fsel.toNat with
  | true => exact bne_iff_ne.mpr hne
  | false => rfl

theorem getLsbD_setFlag_eq (f : Flag) (b : Byte) (n : Nat) :
    (setFlag f b).getLsbD n = (b.getLsbD n || decide (n = f.fsel.toNat)) := by
  rw [setFlag, BitVec.getLsbD_or, Flag.getLsbD_mask, decide_eq_decide.mpr eq_comm]

theorem getLsbD_clearFlag_eq (f : Flag) (b : Byte) (n : Nat) :
    (clearFlag f b).getLsbD n = (b.getLsbD n && !decide (n = f.fsel.toNat)) := by
  by_cases h : n = f.fsel.toNat
  · simp [clearFlag, Flag.getLsbD_mask, h]
  · simp [getLsbD_clearFlag h, h]

theorem Rf.byte_one_setFlags (x : Rf) (b : Byte) : (x.setFlags b).byte 1 = b := by
  rw [Rf.byte_setFlags, if_pos rfl]

theorem Rf.byte_setFlags_other (x : Rf) (b : Byte) {p : Fin 26} (h : p ≠ 1) : (x.setFlags b).byte p = x.byte p := by
  rw [Rf.byte_setFlags, if_neg h]

/-! ### What a command answers with an RF behind the port -/

section
variable {s : State} {x : Rf} (hx : s.rf = some x)
include hx

/-- Ending a command that has replaced the RF: nothing else is changed. -/
theorem done_setRf_spec (x' : Rf) (r : RData) :
    ∃ t, done r (s.setRf x') = .next t ∧ t.response = some (.ok r) ∧ t.rf = some x' ∧
      t.am = s.am ∧ s.SameHost t ∧ s.SameOutside t := by
  have hrf : (s.setRf x').rf = some x' := State.setRf_rf hx x'
  exact ⟨_, rfl, State.reply_response (State.here_isSome_of_rf hrf) _, by rw [State.reply_rf, hrf], by simp,
    ⟨rfl, rfl⟩, (s.sameOutside_setRf x').trans (State.sameOutside_reply _ _)⟩

theorem exec_rrdb_eq (o : Half) :
    exec (.rrdb o) s = orRaise (byteOffset o) s fun p => done (zextByte (x.byte p)) s :=
  withRf_some hx _

theorem exec_rwrb_eq (o : Half) (v : Byte) :
    exec (.rwrb o v) s = orRaise (byteOffset o) s fun p => done 0 (s.setRf (x.setByte p v)) :=
  withRf_some hx _

theorem exec_rrdw_eq (o : Half) :
    exec (.rrdw o) s = orRaise (wordOffset o) s fun p => done (zextWord (x.word p)) s :=
  withRf_some hx _

theorem exec_rwrw_eq (o v : Half) :
    exec (.rwrw o v) s = orRaise (wordOffset o) s fun p => done 0 (s.setRf (x.setWord p v)) :=
  withRf_some hx _

theorem exec_rgetf_eq (f : Flag) :
    exec (.rgetf f) s = done (if (x.byte 1).getLsbD f.fsel.toNat then 1 else 0) s := by
  rw [← Rf.flags_eq_byte, ← getFlag_eq_getLsbD]
  exact withRf_some hx _

theorem exec_rsetf_eq (f : Flag) :
    exec (.rsetf f) s = done 0 (s.setRf (x.setFlags (setFlag f (x.byte 1)))) :=
  withRf_some hx _

theorem exec_rclrf_eq (f : Flag) :
    exec (.rclrf f) s = done 0 (s.setRf (x.setFlags (clearFlag f (x.byte 1)))) :=
  withRf_some hx _

theorem exec_rdumpf_eq :
    exec .rdumpf s = done (zextByte (x.byte 1)) (s.emit (flagBits (x.byte 1) ++ flagLabelRow (x.byte 1))) :=
  withRf_some hx _

theorem rf_after_rsetf {t : State} {f : Flag} (h : exec (.rsetf f) s = .next t) :
    t.rf = some (x.setFlags (setFlag f (x.byte 1))) := by
  rw [exec_rsetf_eq hx] at h
  rw [done_next h, State.reply_rf, State.setRf_rf hx]

theorem rf_after_rclrf {t : State} {f : Flag} (h : exec (.rclrf f) s = .next t) :
    t.rf = some (x.setFlags (clearFlag f (x.byte 1))) := by
  rw [exec_rclrf_eq hx] at h
  rw [done_next h, State.reply_rf, State.setRf_rf hx]

/-- RGETF answers the flag's bit of the byte at offset 1 and leaves the rest. -/
theorem rgetf_spec (f : Flag) :
    ∃ t, exec (.rgetf f) s = .next t ∧
      t.response = some (.ok (if (x.byte 1).getLsbD f.fsel.toNat then 1 else 0)) ∧ s.OnlyResponse t := by
  rw [exec_rgetf_eq hx]
  exact done_spec (State.here_isSome_of_rf hx) _

end

/-! ### One byte -/

/-- Settles O8: the offset check passes just below 26, and the byte is then the reply. -/
theorem rrdbReadsByte : Obligations.RrdbReadsByte := by
  refine ⟨fun w hop hrsv => decode_eq_ok_iff.mpr ⟨hop, hrsv, rfl⟩, fun s x o ho hx => ?_, fun s x o hx ho => ?_⟩
  · obtain ⟨t, ht, hr, hout⟩ := done_spec (State.here_isSome_of_rf hx) (zextByte (x.byte ⟨o.toNat, ho⟩))
    exact ⟨t, _, (exec_rrdb hx ho).trans ht, hr, zextByte_toNat _, hout⟩
  · rw [exec_rrdb_eq hx, byteOffset_error ho]
    exact raise_spec (State.here_isSome_of_rf hx) _

/-- Settles O9: the offset check passes just below 26, and the RF is then replaced by the one written. -/
theorem rwrbWritesOneByte : Obligations.RwrbWritesOneByte := by
  refine ⟨fun w hop hrsv => decode_eq_ok_iff.mpr ⟨hop, hrsv, rfl⟩, fun s x o v ho hx => ?_, fun s x o v hx ho => ?_⟩
  · obtain ⟨t, ht, hr, hrf, hframe⟩ := done_setRf_spec hx (x.setByte ⟨o.toNat, ho⟩ v) 0
    refine ⟨t, _, ?_, hr, hrf, x.byte_setByte_same _ v, fun p hp => ?_, hframe⟩
    · rw [exec_rwrb_eq hx, byteOffset_ok ho, orRaise_ok, ht]
    · rw [Rf.byte_setByte, if_neg (Fin.ne_of_val_ne hp)]
  · rw [exec_rwrb_eq hx, byteOffset_error ho]
    exact raise_spec (State.here_isSome_of_rf hx) _

/-! ### One word -/

/-- Settles O10: the offset check passes just below 25, and the reply is the word `{x[o+1], x[o]}`, whose value adds
the unsigned bytes. -/
theorem rrdwComposesWord : Obligations.RrdwComposesWord := by
  refine ⟨fun w hop hrsv => decode_eq_ok_iff.mpr ⟨hop, hrsv, rfl⟩, fun s x o ho hx => ?_, fun s x o hx ho => ?_⟩
  · have ho' : o.toNat < 25 := Nat.lt_of_succ_lt_succ ho
    obtain ⟨t, ht, hr, hout⟩ := done_spec (State.here_isSome_of_rf hx) (zextWord (x.word ⟨o.toNat, ho'⟩))
    refine ⟨t, _, ?_, hr, ?_, hout⟩
    · rw [exec_rrdw_eq hx, wordOffset_ok ho', orRaise_ok, ht]
    · rw [zextWord_toNat, Rf.word, word_toNat, Fin.castSucc_mk, Fin.succ_mk]
  · rw [exec_rrdw_eq hx, wordOffset_error ho]
    exact raise_spec (State.here_isSome_of_rf hx) _

/-- Settles O11: the offset check passes just below 25, before either byte is written. -/
theorem rwrwWritesTwoBytes : Obligations.RwrwWritesTwoBytes := by
  refine ⟨fun w hop hrsv => decode_eq_ok_iff.mpr ⟨hop, hrsv, rfl⟩, fun s x o v ho hx => ?_, fun s x o v hx ho => ?_⟩
  · have ho' : o.toNat < 25 := Nat.lt_of_succ_lt_succ ho
    obtain ⟨t, ht, hr, hrf, hframe⟩ := done_setRf_spec hx (x.setWord ⟨o.toNat, ho'⟩ v) 0
    refine ⟨t, _, ?_, hr, hrf, ?_, ?_, fun q hlow hhigh => x.byte_setWord_other hlow hhigh v, hframe⟩
    · rw [exec_rwrw_eq hx, wordOffset_ok ho', orRaise_ok, ht]
    · rw [← low8_toNat, ← x.byte_setWord_low ⟨o.toNat, ho'⟩ v, Fin.castSucc_mk]
    · rw [← high8_toNat, ← x.byte_setWord_high ⟨o.toNat, ho'⟩ v, Fin.succ_mk]
  · rw [exec_rwrw_eq hx, wordOffset_error ho]
    exact raise_spec (State.here_isSome_of_rf hx) _

/-! ### Flags -/

/-- Settles O12: a flag's value is the bit of its number in F. -/
theorem rgetfReadsFlagBit : Obligations.RgetfReadsFlagBit :=
  ⟨fun _ f hop hrsv hf => decode_eq_ok_iff.mpr ⟨hop, hrsv, flagCommand_eq_ok_iff.mpr ⟨f, hf, rfl⟩⟩,
    fun w hop hf => (decode_eq_error_iff w).mpr (.inr (.inr ⟨.inl hop, hf⟩)), fun _ _ f hx => rgetf_spec hx f⟩

/-- Settles O13: the mask that is or-ed to F has the flag's bit alone. -/
theorem rsetfSetsOneFlag : Obligations.RsetfSetsOneFlag := by
  refine ⟨fun w f hop hrsv hf => decode_eq_ok_iff.mpr ⟨hop, hrsv, flagCommand_eq_ok_iff.mpr ⟨f, hf, rfl⟩⟩,
    fun w hop hf => (decode_eq_error_iff w).mpr (.inr (.inr ⟨.inr (.inl hop), hf⟩)), fun s x f hx => ?_⟩
  obtain ⟨t, ht, hr, hrf, hframe⟩ := done_setRf_spec hx (x.setFlags (setFlag f (x.byte 1))) 0
  refine ⟨t, _, (exec_rsetf_eq hx f).trans ht, hr, hrf, fun n _ => ?_, fun p hp => x.byte_setFlags_other _ hp, hframe⟩
  rw [Rf.byte_one_setFlags, getLsbD_setFlag_eq]

/-- Settles O14: the mask taken out of F has the flag's bit alone. -/
theorem rclrfClearsOneFlag : Obligations.RclrfClearsOneFlag := by
  refine ⟨fun w f hop hrsv hf => decode_eq_ok_iff.mpr ⟨hop, hrsv, flagCommand_eq_ok_iff.mpr ⟨f, hf, rfl⟩⟩,
    fun w hop hf => (decode_eq_error_iff w).mpr (.inr (.inr ⟨.inr (.inr hop), hf⟩)), fun s x f hx => ?_⟩
  obtain ⟨t, ht, hr, hrf, hframe⟩ := done_setRf_spec hx (x.setFlags (clearFlag f (x.byte 1))) 0
  refine ⟨t, _, (exec_rclrf_eq hx f).trans ht, hr, hrf, fun n _ => ?_, fun p hp => x.byte_setFlags_other _ hp, hframe⟩
  rw [Rf.byte_one_setFlags, getLsbD_clearFlag_eq]

/-- RGETF of a flag answers alike in states whose RFs agree in the flag's bit. -/
theorem rgetf_response_congr {s t : State} {x y : Rf} {g : Flag} (hx : s.rf = some x) (hy : t.rf = some y)
    (hbit : (y.byte 1).getLsbD g.fsel.toNat = (x.byte 1).getLsbD g.fsel.toNat) :
    ∃ u v r, exec (.rgetf g) s = .next u ∧ exec (.rgetf g) t = .next v ∧ u.response = some r ∧
      v.response = some r := by
  obtain ⟨u, hu, hru, -⟩ := rgetf_spec hx g
  obtain ⟨v, hv, hrv, -⟩ := rgetf_spec hy g
  exact ⟨u, v, _, hu, hv, hru, by rw [hrv, hbit]⟩

/-- Settles O44: the RF left by RSETF and RCLRF has the flag's bit set or clear, and the bits of the others as
before, since no two flags have the same number. -/
theorem flagAccessorsAgree : Obligations.FlagAccessorsAgree := by
  refine fun s t x f hx => ⟨fun h => ?_, fun h => ?_, fun g hg h => ?_⟩
  · obtain ⟨u, hu, hr, -⟩ := rgetf_spec (rf_after_rsetf hx h) f
    exact ⟨u, hu, by simpa [Rf.byte_one_setFlags, getLsbD_setFlag_eq] using hr⟩
  · obtain ⟨u, hu, hr, -⟩ := rgetf_spec (rf_after_rclrf hx h) f
    exact ⟨u, hu, by simpa [Rf.byte_one_setFlags, getLsbD_clearFlag_eq] using hr⟩
  · have hne : g.fsel.toNat ≠ f.fsel.toNat := Flag.fsel_toNat_ne hg
    rcases h with h | h
    · exact rgetf_response_congr hx (rf_after_rsetf hx h) (by rw [Rf.byte_one_setFlags, getLsbD_setFlag hne])
    · exact rgetf_response_congr hx (rf_after_rclrf hx h) (by rw [Rf.byte_one_setFlags, getLsbD_clearFlag hne])

/-! ### The flag dump -/

/-- The digits of the flag dump are those of bits 7 down to 0, before a line end (R139). -/
theorem flagBits_eq_map (b : Byte) :
    flagBits b = ([7, 6, 5, 4, 3, 2, 1, 0].map fun n => if b.getLsbD n then '1' else '0') ++ ['\n'] := rfl

theorem flagLetter_eq (b : Byte) (f : Flag) : flagLetter b f = if b.getLsbD f.fsel.toNat then 'T' else 'F' := by
  rw [flagLetter, getFlag_eq_getLsbD]

/-- Settles O15: the reply is F, after the text of F. -/
theorem rdumpfEmitsAndAnswersF : Obligations.RdumpfEmitsAndAnswersF := by
  refine ⟨fun w hop hrsv => decode_eq_ok_iff.mpr ⟨hop, hrsv, rfl⟩, fun s x hx => ?_⟩
  rw [← flagBits_eq_map]
  exact ⟨_, _, exec_rdumpf_eq hx, State.reply_response (s := s.emit _) (State.here_isSome_of_rf hx) _,
    zextByte_toNat _, rfl, by simp, by simp, rfl, (s.sameOutside_emit _).trans (State.sameOutside_reply _ _)⟩

/-- Settles O16: the letters of the row, each by the bit of its flag's number. -/
theorem flagLabelRowShowsLetters : Obligations.FlagLabelRowShowsLetters := by
  intro b
  simp only [flagLabelRow, flagLetter_eq]
  rfl

end Sys2Proof.Machine
end

section
/-! Errors and their codes: an error is the response and nothing else, each command raises its own errors only, and
construction makes a block at a free port alone (60_exceptions.md R160 to R171). -/

namespace Sys2Proof.Machine

/-! ### An error response and what it leaves alone (R161) -/

/-- The response at the port after a reply is that reply. -/
theorem State.eq_of_reply_response {s : State} {r q : Response} (h : (s.reply r).response = some q) : q = r := by
  cases hs : s.here with
  | none => simp [State.response, hs] at h
  | some b => exact Option.some.inj (h.symm.trans (State.reply_response (by simp [hs]) r))

theorem State.reply_ok_response_ne (s : State) (r : RData) (e : Error) :
    (s.reply (.ok r)).response ≠ some (.error e) := by
  intro h
  cases State.eq_of_reply_response h

/-- A command that ends in an error has done nothing but raise it: each of the other ends replies OK. -/
theorem exec_error_next {i : Instr} {s t : State} {e : Error} (h : exec i s = .next t)
    (he : t.response = some (.error e)) : t = s.reply (.error e) := by
  obtain ⟨e', rfl⟩ | ⟨r, rfl, -⟩ | ⟨x, x', -, rfl, -⟩ | ⟨m, a, bytes, -, -, -, rfl, -⟩ | ⟨text, r, rfl, -⟩ |
    ⟨g, sp, bytes, -, -, rfl⟩ := exec_next h
  case inl => rw [State.eq_of_reply_response he]
  all_goals exact absurd he (State.reply_ok_response_ne _ _ _)

/-- Settles O27: a command that ends in an error has only replied, and no command sees the reply that stands. -/
theorem errorWritesNothing : Obligations.ErrorWritesNothing := by
  refine ⟨fun i s t e h he => ?_, exec_reply⟩
  rw [exec_error_next h he]
  exact s.onlyResponse_reply _

/-! ### The codes (R160) -/

theorem Error.status_toNat_lt (e : Error) : e.status.toNat < 7 := by
  cases e <;> simp [Error.status]

/-- Settles O29: each code is the one written for its error, and OK's is 0. -/
theorem statusCodes : Obligations.StatusCodes := by
  refine ⟨fun r => ⟨rfl, rfl⟩, fun a => rfl, fun b e => rfl, fun b e => rfl, fun h => rfl, fun n => rfl, fun h => rfl,
    fun w => rfl, fun e => ⟨rfl, rfl⟩, fun r => ?_⟩
  cases r with
  | ok d => exact Nat.zero_lt_succ 6
  | error e => exact e.status_toNat_lt

/-! ### The error of each check -/

theorem byteOffset_error_status {o : Half} {e : Error} (h : byteOffset o = .error e) : e.status = 1 := by
  unfold byteOffset at h
  split at h <;> cases h
  rfl

theorem wordOffset_error_status {o : Half} {e : Error} (h : wordOffset o = .error e) : e.status = 1 := by
  unfold wordOffset at h
  split at h <;> cases h
  rfl

theorem address_error_status {m : Am} {a : Half} {e : Error} (h : address m a = .error e) : e.status = 1 := by
  unfold address at h
  split at h <;> cases h
  rfl

/-- A span fails by a reversed or too long one (2), or by one outside the window (1) (R91). -/
theorem span_error_status {m : Am} {sp : Span} {e : Error} (h : span m sp = .error e) :
    e.status = 1 ∨ e.status = 2 := by
  unfold span spanCheck at h
  split at h
  · cases h
    exact .inr rfl
  · split at h
    · cases h
      exact .inr rfl
    · split at h <;> cases h
      exact .inl rfl

theorem freshFile_error_status {s : State} {g : Half} {e : Error} (h : freshFile s g = .error e) : e.status = 5 := by
  unfold freshFile at h
  split at h <;> cases h
  rfl

theorem imageFile_error_status {file : Option (List Byte)} {g : Half} {cap : Nat} {e : Error}
    (h : imageFile file g cap = .error e) : e.status = 3 ∨ e.status = 4 := by
  unfold imageFile at h
  split at h
  · cases h
    exact .inl rfl
  · split at h <;> cases h
    exact .inr rfl

/-! ### The errors of each command -/

/-- The STATUS codes that a command's errors may have: R160's table, read by its "raised by" column. -/
def errorStatuses : Opcode → List (BitVec 4)
  | .rrdb | .rwrb | .rrdw | .rwrw | .mrd | .mwr => [1]
  | .mfill | .mdump => [1, 2]
  | .msave => [1, 2, 5]
  | .mload => [3, 4]
  | .rgetf | .rsetf | .rclrf | .rdumpf | .mbegin | .mend | .msize => []

/-- Where `k` answers an error, its STATUS is one of `l`. -/
def RaisesOnly (l : List (BitVec 4)) (k : Result) : Prop :=
  ∀ t e, k = .next t → t.response = some (.error e) → e.status ∈ l

section
variable {l : List (BitVec 4)}

theorem raisesOnly_done (r : RData) (s : State) : RaisesOnly l (done r s) := by
  intro t e h he
  rw [done_next h] at he
  exact absurd he (State.reply_ok_response_ne _ _ _)

theorem raisesOnly_orRaise {α : Type} {c : Except Error α} {s : State} {k : α → Result}
    (hc : ∀ e, c = .error e → e.status ∈ l) (hk : ∀ a, RaisesOnly l (k a)) : RaisesOnly l (orRaise c s k) := by
  intro t e h he
  obtain ⟨a, -, h⟩ | ⟨e', hc', rfl⟩ := orRaise_next h
  · exact hk a t e h he
  · cases State.eq_of_reply_response he
    exact hc e hc'

theorem raisesOnly_withAm {s : State} {k : Am → Result} (hk : ∀ m, RaisesOnly l (k m)) :
    RaisesOnly l (withAm s k) := by
  intro t e h he
  obtain ⟨m, -, h⟩ := withAm_next h
  exact hk m t e h he

theorem raisesOnly_withRf {s : State} {k : Rf → Result} (hk : ∀ x, RaisesOnly l (k x)) :
    RaisesOnly l (withRf s k) := by
  intro t e h he
  obtain ⟨x, -, h⟩ := withRf_next h
  exact hk x t e h he

end

/-- A command raises the errors of its checks, one after the other. -/
theorem exec_raisesOnly (i : Instr) (s : State) : RaisesOnly (errorStatuses i.opcode) (exec i s) := by
  cases i with
  | rrdb o | rwrb o v =>
    refine raisesOnly_withRf fun x => raisesOnly_orRaise (fun e he => ?_) fun p => raisesOnly_done _ _
    simp [Instr.opcode, errorStatuses, byteOffset_error_status he]
  | rrdw o | rwrw o v =>
    refine raisesOnly_withRf fun x => raisesOnly_orRaise (fun e he => ?_) fun p => raisesOnly_done _ _
    simp [Instr.opcode, errorStatuses, wordOffset_error_status he]
  | mrd a | mwr a v =>
    refine raisesOnly_withAm fun m => raisesOnly_orRaise (fun e he => ?_) fun n => raisesOnly_done _ _
    simp [Instr.opcode, errorStatuses, address_error_status he]
  | mfill v sp | mdump sp =>
    refine raisesOnly_withAm fun m => raisesOnly_orRaise (fun e he => ?_) fun r => raisesOnly_done _ _
    simpa [Instr.opcode, errorStatuses] using span_error_status he
  | msave g sp =>
    refine raisesOnly_withAm fun m => raisesOnly_orRaise (fun e he => ?_) fun r =>
      raisesOnly_orRaise (fun e he => ?_) fun u => raisesOnly_done _ _
    · obtain he | he := span_error_status he <;> simp [Instr.opcode, errorStatuses, he]
    · simp [Instr.opcode, errorStatuses, freshFile_error_status he]
  | mload g =>
    refine raisesOnly_withAm fun m => raisesOnly_orRaise (fun e he => ?_) fun bytes => raisesOnly_done _ _
    simpa [Instr.opcode, errorStatuses] using imageFile_error_status he
  | rgetf | rsetf | rclrf | rdumpf => exact raisesOnly_withRf fun x => raisesOnly_done _ _
  | mbegin | mend | msize => exact raisesOnly_withAm fun m => raisesOnly_done _ _

/-- The commands of each code. -/
theorem errorStatuses_raisedBy (op : Opcode) : ∀ c ∈ errorStatuses op,
    (c = 1 → op ∈ [.mrd, .mwr, .mfill, .mdump, .msave, .rrdb, .rwrb, .rrdw, .rwrw]) ∧
    (c = 2 → op ∈ [.mfill, .mdump, .msave]) ∧ (c = 3 ∨ c = 4 → op = .mload) ∧ (c = 5 → op = .msave) ∧ c ≠ 6 := by
  cases op <;> decide

/-- Settles O30: the codes a command raises, read the other way round. -/
theorem commandsRaiseOnlyTheirErrors : Obligations.CommandsRaiseOnlyTheirErrors :=
  fun i s t e h he => errorStatuses_raisedBy i.opcode e.status (exec_raisesOnly i s t e h he)

/-! ### Construction (R171, R180 to R184) -/

/-- Settles O52: construction goes on at a free port only. -/
theorem liveUnitIsNotConstructedAgain : Obligations.LiveUnitIsNotConstructedAgain :=
  fun _ _ _ _ hb => ⟨fun _ => atFreePort_live hb _, atFreePort_live hb _⟩

/-- A cell no command has written holds what construction left there. -/
@[simp] theorem Memory.read_nil (c : Contents) (i : Nat) : Memory.read ⟨c, []⟩ i = c.byte i := rfl

/-- A draw lies within its range (R182). -/
theorem Contents.byte_drawn_bounds {lo hi : Byte} (h : lo.toNat ≤ hi.toNat) (k i : Nat) :
    lo.toNat ≤ ((Contents.drawn lo hi k).byte i).toNat ∧ ((Contents.drawn lo hi k).byte i).toNat ≤ hi.toNat := by
  have hoff : (Config.rand k i).toNat % (hi.toNat - lo.toNat + 1) < hi.toNat - lo.toNat + 1 :=
    Nat.mod_lt _ (Nat.succ_pos _)
  have hhi : hi.toNat < 256 := hi.isLt
  simp only [Contents.byte, BitVec.toNat_add, BitVec.toNat_ofNat]
  omega

/-- Construction at a free port, in a legal configuration whose mode leaves `c` in the cells. -/
theorem constructAm_eq {s : State} {port : Nat} {cfg : AmConfig} {c : Contents}
    (hfree : Table.lookup port s.blocks = none) (hw : cfg.wellFormed = true)
    (hc : construct cfg.init cfg.cap s = .ok c) (agent : Nat) :
    perform (.constructAm agent port cfg) s =
      .next (s.putBlock port ⟨agent, .am ⟨cfg.base, cfg.cap, ⟨c, []⟩⟩, none⟩).constructed := by
  rw [perform, constructAm, atFreePort_eq hfree, if_pos hw, hc]

/-- What every mode has in common: the block made, its configuration and its cells, and all that stays as it was.
`P i` is what the mode says of cell `i`. -/
theorem constructAm_spec {s : State} {port cap : Nat} {base : Half} {init : MemInit} {c : Contents}
    {P : Nat → Byte → Prop} (hfree : Table.lookup port s.blocks = none) (hcap : 0 < cap)
    (hwin : base.toNat + cap - 1 ≤ 0xFFFF) (hinit : init.wellFormed = true) (hc : construct init cap s = .ok c)
    (hP : ∀ i, i < cap → P i (c.byte i)) (agent : Nat) :
    ∃ t m, perform (.constructAm agent port ⟨base, cap, init⟩) s = .next t ∧
      Table.lookup port t.blocks = some ⟨agent, .am m, none⟩ ∧
      (∀ n, n ≠ port → Table.lookup n t.blocks = Table.lookup n s.blocks) ∧ t.files = s.files ∧ t.out = s.out ∧
      t.launch = some .constructed ∧ m.base = base ∧ m.cap = cap ∧ ∀ i, i < cap → P i (m.mem.read i) := by
  have hw : (AmConfig.mk base cap init).wellFormed = true := by simp [AmConfig.wellFormed, hcap, hwin, hinit]
  exact ⟨_, ⟨base, cap, ⟨c, []⟩⟩, constructAm_eq hfree hw hc agent, by simp,
    fun n hn => by simp [hn], rfl, rfl, rfl, rfl, rfl, by simpa only [Memory.read_nil] using hP⟩

/-- Settles O47: the three modes, each with what it leaves in the cells. -/
theorem constructionSetsEveryCell : Obligations.ConstructionSetsEveryCell := by
  refine ⟨fun s agent port cap base v hfree hcap hwin => ?_,
    fun s agent port cap base lo hi hfree hcap hwin hle => ?_,
    fun s agent port cap base h bytes hfree hcap hwin hf hl => ?_⟩
  · exact constructAm_spec (init := .fill v) (P := fun _ b => b = v) hfree hcap hwin rfl rfl (fun _ _ => rfl) agent
  · exact constructAm_spec (init := .random lo hi) (P := fun _ b => lo.toNat ≤ b.toNat ∧ b.toNat ≤ hi.toNat) hfree
      hcap hwin (decide_eq_true hle) rfl (fun i _ => Contents.byte_drawn_bounds hle s.draws i) agent
  · refine constructAm_spec (P := fun i b => bytes[i]? = some b) hfree hcap hwin rfl (construct_image hf hl)
      (fun i hi => ?_) agent
    rw [Contents.byte, List.getD_eq_getElem?_getD, List.getElem?_eq_getElem (hl ▸ hi), Option.getD_some]

end Sys2Proof.Machine
end

section
/-! Construction by the host: a refused configuration and an image that fails leave the report and no instance
(70_reset_and_hazards.md R182, R184, R185); reset as two constructions (R180). -/

namespace Sys2Proof.Machine

/-! ### Construction that makes no instance -/

/-- What each check of a configuration refuses (00_scope.md R8; R182). -/
theorem AmConfig.wellFormed_eq_false {cfg : AmConfig} (h : cfg.cap = 0 ∨ 0xFFFF < cfg.base.toNat + cfg.cap - 1 ∨
    ∃ lo hi, cfg.init = .random lo hi ∧ hi.toNat < lo.toNat) : cfg.wellFormed = false := by
  obtain hcap | hwin | ⟨lo, hi, hinit, hlt⟩ := h
  · simp [AmConfig.wellFormed, hcap]
  · simp [AmConfig.wellFormed, Nat.not_le.mpr hwin]
  · simp [AmConfig.wellFormed, MemInit.wellFormed, hinit, Nat.not_le.mpr hlt]

/-- A configuration the block refuses is reported so, whatever the image (log 15). -/
theorem constructAm_refused {s : State} {port : Nat} {cfg : AmConfig} (hfree : Table.lookup port s.blocks = none)
    (hw : cfg.wellFormed = false) (agent : Nat) :
    perform (.constructAm agent port cfg) s = .next { s with launch := some .configRefused } := by
  rw [perform, constructAm, atFreePort_eq hfree, hw, if_neg Bool.false_ne_true]

/-- An image construction in a legal window fails as the check of its file does (R184). -/
theorem constructAm_imageFailed {s : State} {port : Nat} {cfg : AmConfig} {g : Half} {e : Error}
    (hfree : Table.lookup port s.blocks = none) (hcap : 0 < cfg.cap) (hwin : cfg.base.toNat + cfg.cap - 1 ≤ 0xFFFF)
    (hinit : cfg.init = .image g) (he : imageFile (s.file g) g cfg.cap = .error e) (agent : Nat) :
    perform (.constructAm agent port cfg) s = .next { s with launch := some (.failed e) } := by
  have hw : cfg.wellFormed = true := by simp [AmConfig.wellFormed, MemInit.wellFormed, hcap, hwin, hinit]
  have hc : construct cfg.init cfg.cap s = .error e := by simp only [hinit, construct, he]
  rw [perform, constructAm, atFreePort_eq hfree, if_pos hw, hc]

/-- Settles O48: in each case the host's report is all that changes, so the port stays without an instance. -/
theorem failedConstructionMakesNoInstance : Obligations.FailedConstructionMakesNoInstance := by
  intro s agent port cfg hfree report hcase
  suffices h : perform (.constructAm agent port cfg) s = .next { s with launch := some report } from
    ⟨_, h, rfl, rfl, rfl, rfl, fun agent' _ => asOwner_noBlock hfree agent' _⟩
  obtain ⟨rfl, hbad⟩ | ⟨hcap, hwin, g, hinit, ⟨hf, rfl⟩ | ⟨bytes, hf, hl, rfl⟩⟩ := hcase
  · exact constructAm_refused hfree (AmConfig.wellFormed_eq_false hbad) agent
  · exact constructAm_imageFailed hfree hcap hwin hinit (by rw [hf, imageFile]) agent
  · exact constructAm_imageFailed hfree hcap hwin hinit (imageFile_otherLength hf hl) agent

/-! ### Reset is construction (R180) -/

theorem core_run_succ {s t : State} (h : step s = .next t) (k : Nat) :
    Sys2Proof.core.run (k + 1) s = Sys2Proof.core.run k t := by
  have hstep : Sys2Proof.core.step s = .next t := h
  simp only [Host.Core.run, hstep]

/-- Before reset: nothing exists, and agent 0 asks for both instances of `State.reset`. -/
def beforeReset : State where
  blocks := []
  port := 0
  files := []
  out := []
  inbox := [.constructAm 0 0 ⟨Config.resetBase, Config.resetCap, .fill Config.resetFill⟩, .constructRf 0 1]
  draws := 0
  launch := none

/-- Between the two constructions of reset: the AM is made, the RF is asked for. -/
def betweenConstructions : State :=
  { beforeReset.putBlock 0 ⟨0, .am ⟨Config.resetBase, Config.resetCap, ⟨.filled Config.resetFill, []⟩⟩, none⟩ with
    inbox := [.constructRf 0 1]
    draws := 1
    launch := some .constructed }

theorem step_beforeReset : step beforeReset = .next betweenConstructions :=
  step_oldest rfl (constructAm_eq rfl (by decide) rfl 0)

theorem step_betweenConstructions : step betweenConstructions = .next State.reset :=
  step_oldest rfl (constructRf_eq rfl 0)

/-- Settles O42: the AM takes the first step and the RF the second. -/
theorem resetIsConstruction : Obligations.ResetIsConstruction :=
  calc Sys2Proof.core.run 2 beforeReset
    _ = Sys2Proof.core.run 1 betweenConstructions := core_run_succ step_beforeReset 1
    _ = Sys2Proof.core.run 0 State.reset := core_run_succ step_betweenConstructions 0
    _ = .next State.reset := rfl

end Sys2Proof.Machine
end
